-- ==== Sys2Proof/Word.lean ====
section
/-! DEFINITION. The two data widths of the block (`spec/00_scope.md` R10): a byte is 8 bits, a word 32 bits, both unsigned. -/

namespace Sys2Proof

/-- A byte: 8 bits, value 0 to 255 (R10). -/
abbrev Byte := BitVec 8

/-- A cipher word: 32 bits, unsigned (R8 `W`, R10). -/
abbrev Word := BitVec 32

end Sys2Proof
end

