-- ==== Sys2Proof/Syntax.lean ====
section
/-! DEFINITION. The operation set of `spec/30_encoding.md` R60, the operands that travel beside a command word (R61, R62), and
the lines of a host script (R67). -/

namespace Sys2Proof

/-- The ten operations of R60, one constructor for each row of `spec/opcode_table.json`. No operand is encoded in a command
word (R62), so no constructor carries one: operands stand on the unit interface (`Operands`) or in the host's registers. -/
inductive Instr where
  | init
  | encb
  | encw
  | xword
  | skey
  | skeysalt
  | bhash
  | derive
  | zero
  | sha512
  deriving DecidableEq, Repr

/-- A byte-buffer operand (R61): a reference to `PH` or `SD`, or, for a unit tested on its own (`spec/95_test_vectors.md` P1), the
bytes themselves. -/
inductive ByteSource where
  | ph
  | sd
  | given (bytes : List Byte)
  deriving DecidableEq, Repr

/-- The operand values a calling unit presents beside an operation code (R60, R61). The count `n` of `ENCW` and the lengths of
the byte operands are the lengths of the lists. -/
structure Operands where
  /-- `L` of `ENCB`. -/
  left : Word
  /-- `R` of `ENCB`. -/
  right : Word
  /-- `W[0..n-1]` of `ENCW`. -/
  words : List Word
  /-- `B` of `XWORD`, `K` of `SKEY` and `SKEYSALT`. -/
  key : ByteSource
  /-- `cur` of `XWORD`. -/
  cur : Nat
  /-- `Sa` of `SKEYSALT`. -/
  salt : ByteSource
  /-- `M` of `SHA512`. -/
  msg : List Byte
  deriving DecidableEq, Repr

/-- The result values a unit hands back to its caller (R60, R61). -/
structure Results where
  /-- `L'` of `ENCB`. -/
  left : Word
  /-- `R'` of `ENCB`. -/
  right : Word
  /-- `W'[0..n-1]` of `ENCW`. -/
  words : List Word
  /-- `w` of `XWORD`. -/
  word : Word
  /-- `cur'` of `XWORD`. -/
  cur : Nat
  /-- `D[0..63]` of `SHA512`. -/
  digest : Vector Byte 64
  deriving DecidableEq, Repr

/-- The host-visible registers (R24). -/
inductive HostReg where
  | cmd
  | status
  | rounds
  | outlen
  | pwlen
  | saltlen
  deriving DecidableEq, Repr

/-- The host-visible byte buffers (R28). -/
inductive HostBuf where
  | pwd
  | salt
  | out
  deriving DecidableEq, Repr

/-- What the outside world can do to the block: the lines of a host script (R67), the hardware reset input (R126), and `pause`,
in which the host does nothing while the block makes one move. -/
inductive HostAction where
  /-- `WR reg, value`. -/
  | wr (r : HostReg) (v : Word)
  /-- `WRB buf, i, bytes`. -/
  | wrb (b : HostBuf) (i : Nat) (bytes : List Byte)
  /-- `CMD code`. -/
  | cmd (c : BitVec 8)
  /-- `WAIT`: read `STATUS` until `DONE = 1`. -/
  | wait
  /-- `RD reg`. -/
  | rd (r : HostReg)
  /-- `RDB buf, i, n`. -/
  | rdb (b : HostBuf) (i n : Nat)
  /-- The hardware reset input is asserted (R126). -/
  | reset
  /-- The host does nothing; the block makes one move. -/
  | pause
  deriving DecidableEq, Repr

end Sys2Proof
end

