-- ==== Sys2Proof/Machine/State.lean ====
section
/-! DEFINITION. Everything the spec gives the machine as plain data (`spec/10_state.md`), the reasons a step can stop, and the
state after reset (R36, R126). -/

namespace Sys2Proof.Machine

/-- CipherState (R15, R17 to R19): the permutation table and the four substitution tables of unit `core`. -/
structure CipherState where
  P : Vector Word 18
  S : Vector (Vector Word 256) 4
  deriving DecidableEq, Repr

/-- A block of two words, left and right: RunningBlock (R20) and the operands of `ENCB` (R72). -/
structure Block where
  L : Word
  R : Word
  deriving DecidableEq, Repr

/-- The bytes of one host buffer (R28) that differ from what an unlisted index reads as, by strictly rising index. -/
abbrev Memory := List Host.Cell

/-- The two error kinds (R104, R105). -/
inductive ErrorKind where
  | invalidArgument
  | internalInvariantViolation
  deriving DecidableEq, Repr

/-- The step inside one `BHASH` (R30, R82), with the counter of a fixed-count loop where there is one. -/
inductive HashStage where
  /-- Step 1: `INIT`. -/
  | init
  /-- Step 2: `SKEYSALT(PH, 64, SD, 64)`. -/
  | salted
  /-- Step 3, `n` iterations done: `SKEY(SD, 64)`. -/
  | expandSalt (n : Nat)
  /-- Step 3, inside iteration `n`: `SKEY(PH, 64)`. -/
  | expandKey (n : Nat)
  /-- Step 4: load `MAGIC`. -/
  | load
  /-- Step 5, `n` encryptions done: `ENCW(8, CDATA)`. -/
  | encrypt (n : Nat)
  /-- Step 6: encode into `TMP`. -/
  | encode
  deriving DecidableEq, Repr

/-- The sequencer's position (R30): idle, or the place inside the running command (the steps of R87). `again` tells the hashes
of the stretching loop (3c) from the first hash of a block (3b). -/
inductive Stage where
  | idle
  /-- The command word `c` has been accepted and is not yet checked. -/
  | accepted (c : BitVec 8)
  /-- Step 1: send the password to the digest port. -/
  | preHash
  /-- Step 1: the digest port answers. -/
  | preHashAnswer
  /-- Step 2. -/
  | blockCount
  /-- Step 3a: send the salt and the block counter. -/
  | saltDigest
  /-- Step 3a: the digest port answers. -/
  | saltDigestAnswer
  /-- Steps 3b and 3c: inside a `BHASH`. -/
  | hash (again : Bool) (h : HashStage)
  /-- Steps 3b and 3c: `TMP` into `ACC`. -/
  | accumulate (again : Bool)
  /-- Step 3c: send the previous hash. -/
  | reDigest
  /-- Step 3c: the digest port answers. -/
  | reDigestAnswer
  /-- Step 3d. -/
  | scatter
  /-- Step 4: `ZERO`. -/
  | erase
  /-- Completion: `STATUS` shows `DONE`. -/
  | report
  deriving DecidableEq, Repr

/-- The machine. The comment of each field names the spec's piece of state and its rule. The order has no meaning: the small fields
stand first so that Lean tells two states apart without evaluating a key schedule. -/
structure State where
  /-- The sequencer's position (R30). -/
  stage : Stage
  /-- `KCUR` (R21). -/
  kcur : Nat
  /-- `SCUR` (R21). -/
  scur : Nat
  /-- `BLKCNT` (R29). -/
  blkcnt : Nat
  /-- `BLKIDX` (R29). -/
  blkidx : Nat
  /-- `RND` (R29). -/
  rnd : Nat
  /-- `STATUS` (R24, R27). -/
  status : BitVec 32
  /-- `ROUNDS` (R24). -/
  rounds : Word
  /-- `OUTLEN` (R24). -/
  outlen : Word
  /-- `PWLEN` (R24). -/
  pwlen : Word
  /-- `SALTLEN` (R24). -/
  saltlen : Word
  /-- The request outstanding on the digest port (R96, R126). -/
  digestReq : Option (List Byte)
  /-- The model's own: the operation code presented on the operation-select lines (R59, R61). -/
  opSel : Option (BitVec 8)
  /-- The model's own: the host actions still to come (R67). -/
  script : List HostAction
  /-- The model's own: what the last host register read returned (R67 `RD`). -/
  rdWord : Word
  /-- The model's own: what the last host buffer read returned (R67 `RDB`). -/
  rdBytes : List Byte
  /-- The model's own: how many free values have been drawn (R107). -/
  freeCtr : Nat
  /-- The model's own: the operand values presented beside it (R61, R62). -/
  ops : Operands
  /-- The model's own: the result values handed back (R61). -/
  res : Results
  /-- `PWD` (R28). -/
  pwd : Memory
  /-- `SALT` (R28). -/
  salt : Memory
  /-- `OUT` (R28). -/
  out : Memory
  /-- `PH[0..63]` (R22). -/
  ph : Vector Byte 64
  /-- `SD[0..63]` (R22). -/
  sd : Vector Byte 64
  /-- `TMP[0..31]` (R22). -/
  tmp : Vector Byte 32
  /-- `ACC[0..31]` (R22). -/
  acc : Vector Byte 32
  /-- `CDATA[0..7]` (R17). -/
  cdata : Vector Word 8
  /-- `RB.L`, `RB.R` (R20). -/
  rb : Block
  /-- `P`, `S` (R17 to R19). -/
  cipher : CipherState
  deriving DecidableEq, Repr

/-- Why the machine stops with a fault. -/
inductive Fault where
  /-- Raised by a host line `WRB` or `RDB` that reaches past the capacity of buffer `b` at index `i` while the block is idle.
  R13 and R45 define no such access. Safe: the model stops where the spec says nothing. -/
  | hostIndexOutOfRange (b : HostBuf) (i : Nat)
  deriving DecidableEq, Repr

/-- Why the machine refuses. -/
inductive Refusal where
  /-- Raised by an arm of `exec` whose instruction has no meaning yet. Safe. -/
  | notModelled (mnemonic : String)
  /-- Raised by `step` for a reserved code `w` on the unit-to-unit interface, where R63 says that one cannot occur. Safe. -/
  | reservedOperation (w : BitVec 8)
  deriving DecidableEq, Repr

/-- CipherState with every word 0: after reset and after `ZERO` (R36, R97, R127). -/
def CipherState.zeroes : CipherState := ⟨Vector.replicate 18 0, Vector.replicate 4 (Vector.replicate 256 0)⟩

/-- The operand lines with nothing presented: the model's choice (log 1). -/
def Operands.quiet : Operands := ⟨0, 0, [], .ph, 0, .sd, []⟩

/-- The result lines with nothing handed back: the model's choice (log 1). -/
def Results.quiet : Results := ⟨0, 0, [], 0, 0, Vector.replicate 64 0⟩

/-- The machine right after reset (R36, R126): every piece of the spec's state is zero, the sequencer idle, no request
outstanding. -/
def State.reset : State where
  cipher := CipherState.zeroes
  rb := ⟨0, 0⟩
  kcur := 0
  scur := 0
  cdata := Vector.replicate 8 0
  ph := Vector.replicate 64 0
  sd := Vector.replicate 64 0
  tmp := Vector.replicate 32 0
  acc := Vector.replicate 32 0
  blkcnt := 0
  blkidx := 0
  rnd := 0
  status := 0
  rounds := 0
  outlen := 0
  pwlen := 0
  saltlen := 0
  pwd := []
  salt := []
  out := []
  stage := .idle
  digestReq := none
  opSel := none
  ops := Operands.quiet
  res := Results.quiet
  script := []
  rdWord := 0
  rdBytes := []
  freeCtr := 0

end Sys2Proof.Machine
end

