-- ==== Sys2Proof/Machine/Flags.lean ====
section
/-! DEFINITION. The only flags of the block: the three fields of `STATUS` (`spec/10_state.md` R23, R27). -/

namespace Sys2Proof.Machine

/-- `STATUS.BUSY`, bit 0 (R27). -/
def busyFlag (status : BitVec 32) : Bool := status.getLsbD 0

/-- `STATUS.DONE`, bit 1 (R27). -/
def doneFlag (status : BitVec 32) : Bool := status.getLsbD 1

/-- `STATUS.ERR`, bits 3:2 (R27). -/
def errField (status : BitVec 32) : BitVec 2 := status.extractLsb' 2 2

/-- The code of an error kind in `STATUS.ERR` (R27, R104, R105). -/
def errCode : ErrorKind → BitVec 2
  | .invalidArgument => 1
  | .internalInvariantViolation => 2

/-- `STATUS` from its fields; bits 31:4 are 0 (R27). -/
def statusWord (err : BitVec 2) (done busy : Bool) : BitVec 32 :=
  (0 : BitVec 28) ++ err ++ BitVec.ofBool done ++ BitVec.ofBool busy

/-- `STATUS` while a command runs: `0x1` (R87). -/
def statusBusy : BitVec 32 := statusWord 0 false true

/-- `STATUS` after a normal completion: `0x2` (R95). -/
def statusDone : BitVec 32 := statusWord 0 true false

/-- `STATUS` after an error completion: `0x6` or `0xA` (R106, R107). -/
def statusError (k : ErrorKind) : BitVec 32 := statusWord (errCode k) true false

/-- `BUSY = 1`. -/
def State.busy (s : State) : Bool := busyFlag s.status

/-- `DONE = 1`. -/
def State.done (s : State) : Bool := doneFlag s.status

end Sys2Proof.Machine
end

