-- ==== Sys2Proof/Config.lean ====
section
/-! DEFINITION. What an implementation fixes (`spec/00_scope.md` R8, R9, R34) and the free values. The opaque constants have no
body, so a statement that is proved holds for every value of them. -/

namespace Sys2Proof.Config

/-- R8 `EKS_ITER`: expansion pairs in one bcrypt hash. -/
def eksIter : Nat := 64

/-- R8 `ENC_ITER`: encryptions of the constant plaintext in one bcrypt hash. -/
def encIter : Nat := 64

/-- R8 `HLEN`: bytes of one bcrypt hash, hence of one stride of the output. -/
def hlen : Nat := 32

/-- R9 leaves `PW_MAX` open; this is the capacity less one, so that the capacity is at least 1. -/
opaque pwMaxLessOne : Nat

/-- R9 leaves `SALT_MAX` open; this is the capacity less one. -/
opaque saltMaxLessOne : Nat

/-- R9 leaves `OUT_MAX` open within `1 .. 2^32 - 1`; this seed is folded into that range. -/
opaque outMaxSeed : Nat

/-- `PW_MAX`, the capacity of `PWD` in bytes (R9, D6): any natural number of at least 1. -/
def pwMax : Nat := pwMaxLessOne + 1

/-- `SALT_MAX`, the capacity of `SALT` in bytes (R9, D6): any natural number of at least 1. -/
def saltMax : Nat := saltMaxLessOne + 1

/-- `OUT_MAX`, the capacity of `OUT` in bytes (R9, D6): any value in `1 .. 2^32 - 1`. -/
def outMax : Nat := outMaxSeed % (2 ^ 32 - 1) + 1

/-- The digest primitive behind the digest port (R9, R96): some total function from byte strings to 64 bytes. -/
opaque sha512 : List Byte → Vector Byte 64

/-- The free bytes of R107 ('any value'): the `n`-th draw gives byte `freeOutByte n d` for index `d` of `OUT`. -/
opaque freeOutByte : Nat → Nat → Byte

end Sys2Proof.Config
end

