-- ==== Sys2Proof/Machine/Bytes.lean ====
section
/-! DEFINITION. The fields of a command word (`spec/30_encoding.md` R59), byte-order functions (`spec/00_scope.md` R12)
and the bytes of a word (R10). Byte order is decided here alone. -/

namespace Sys2Proof.Machine

/-- R59: bits 7:4 of a command word, the `zero` field. -/
def zeroField (w : BitVec 8) : BitVec 4 := w.extractLsb' 4 4

/-- R59: bits 3:0 of a command word, the `op` field. -/
def opField (w : BitVec 8) : BitVec 4 := w.extractLsb' 0 4

/-- `b0`, `b1`, `b2`, `b3` of a word (R10): `b0 = x[31:24]` is the most significant byte. -/
def wordByte (x : Word) (t : Fin 4) : Byte := x.extractLsb' (24 - 8 * t.val) 8

/-- `(w << 8) | b`: the next byte of a big-endian word (R76). -/
def pushByte (w : Word) (b : Byte) : Word := (w <<< 8) ||| b.setWidth 32

/-- `BE32(n)` (R12): the most significant byte first. -/
def be32 (n : Word) : List Byte := [wordByte n 0, wordByte n 1, wordByte n 2, wordByte n 3]

/-- `LE32(n)` (R12): the least significant byte first. -/
def le32 (n : Word) : List Byte := [wordByte n 3, wordByte n 2, wordByte n 1, wordByte n 0]

/-- The word whose bytes are `a b c d`, most significant first (R146, word assembly). -/
def joinBytes (a b c d : Byte) : Word := pushByte (pushByte (pushByte (pushByte 0 a) b) c) d

/-- `be_word(B, k)` (R12). -/
def beWord (B : List Byte) (k : Nat) : Word :=
  joinBytes (B.getD k 0) (B.getD (k + 1) 0) (B.getD (k + 2) 0) (B.getD (k + 3) 0)

end Sys2Proof.Machine
end

