-- ==== Sys2Proof/Machine/Memory.lean ====
section
/-! DEFINITION. The host buffers as sparse byte memories in one canonical form (`spec/10_state.md` R28, `spec/00_scope.md` R13). -/

namespace Sys2Proof.Machine

/-- What an index that is not listed reads as: 0, the reset contents of `PWD`, `SALT` and `OUT` (R126). -/
def Memory.unlisted : Byte := 0

/-- The byte at an index. -/
def Memory.read : Memory → Nat → Byte
  | [], _ => Memory.unlisted
  | (a, b) :: m, i => if a = i then b else Memory.read m i

/-- Storing a byte: listed in index order, and not listed when it is what an unlisted index reads as. -/
def Memory.write : Memory → Nat → Byte → Memory
  | [], i, v => if v = Memory.unlisted then [] else [(i, v)]
  | (a, b) :: m, i, v =>
    if i < a then
      if v = Memory.unlisted then (a, b) :: m else (i, v) :: (a, b) :: m
    else if i = a then
      if v = Memory.unlisted then m else (i, v) :: m
    else (a, b) :: Memory.write m i v

/-- The canonical form: indices strictly rising, no entry equal to what an unlisted index reads as. -/
abbrev Memory.wf (m : Memory) : Prop := m.Pairwise (fun c d => c.1 < d.1) ∧ ∀ c ∈ m, c.2 ≠ Memory.unlisted

/-- Every listed index is inside a buffer of `cap` bytes. -/
abbrev Memory.within (cap : Nat) (m : Memory) : Prop := ∀ c ∈ m, c.1 < cap

/-- `MemRead(space, i, n)` (R13). -/
def Memory.readBytes (m : Memory) (i n : Nat) : List Byte := (List.range n).map fun k => Memory.read m (i + k)

/-- `MemWrite(space, i, n, v)` (R13), the bytes of `v` in index order. -/
def Memory.writeBytes : Memory → Nat → List Byte → Memory
  | m, _, [] => m
  | m, i, v :: vs => Memory.writeBytes (Memory.write m i v) (i + 1) vs

end Sys2Proof.Machine
end

