-- ==== Sys2Proof/Machine/Operands.lean ====
section
/-! DEFINITION. How operands reach an operation (`spec/30_encoding.md` R61, R62): byte sources of the unit interface, the operands
`DERIVE` takes from the host's registers and buffers, and the messages it sends to the digest port (R96). -/

namespace Sys2Proof.Machine

/-- The bytes a byte-buffer operand refers to (R61). -/
def sourceBytes (s : State) : ByteSource → List Byte
  | .ph => s.ph.toList
  | .sd => s.sd.toList
  | .given bytes => bytes

/-- `PWD[0..PWLEN-1]`, the password (R62, R89). -/
def passwordBytes (s : State) : List Byte := s.pwd.readBytes 0 s.pwlen.toNat

/-- `SALT[0..SALTLEN-1]`, the salt (R62, R91). -/
def saltBytes (s : State) : List Byte := s.salt.readBytes 0 s.saltlen.toNat

/-- The digest message of step 3a: salt, then the 1-based block counter big-endian (R42, R91). -/
def saltMessage (s : State) : List Byte := saltBytes s ++ be32 (BitVec.ofNat 32 (s.blkidx + 1))

/-- The digest message of step 3c: the 32 bytes of the latest hash (R93). -/
def hashMessage (s : State) : List Byte := s.tmp.toList

/-- The seven operand conditions of R88, R104: the operands `DERIVE` refuses. -/
def operandsRefused (s : State) : Bool :=
  decide (s.pwlen.toNat = 0) || decide (s.saltlen.toNat = 0) || decide (s.rounds.toNat = 0) || decide (s.outlen.toNat = 0) ||
    decide (Config.pwMax < s.pwlen.toNat) || decide (Config.saltMax < s.saltlen.toNat) || decide (Config.outMax < s.outlen.toNat)

/-- `ceil(a / b)` over the natural numbers (R11). -/
def ceilDiv (a b : Nat) : Nat := (a + b - 1) / b

end Sys2Proof.Machine
end

