-- ==== Sys2Proof/Machine/Ops.lean ====
section
/-! DEFINITION. The shared operations over the whole state: erasure (`spec/43_pbkdf_driver.md` R97), acceptance of a command (R87),
normal completion (R95), and taking an error (`spec/60_exceptions.md` R106, R107). -/

namespace Sys2Proof.Machine

/-- `n` applications of `f` (R13 `repeat n times`). -/
@[irreducible] def iter {α : Type} (f : α → α) : Nat → α → α
  | 0, a => a
  | n + 1, a => iter f n (f a)

/-- `ZERO()` (R97): every piece of internal storage is 0; nothing of the host's is written. -/
def eraseInternal (s : State) : State :=
  { s with
    ph := Vector.replicate 64 0, sd := Vector.replicate 64 0
    tmp := Vector.replicate 32 0, acc := Vector.replicate 32 0
    cipher := CipherState.zeroes
    rb := ⟨0, 0⟩
    cdata := Vector.replicate 8 0
    kcur := 0, scur := 0, blkcnt := 0, blkidx := 0, rnd := 0 }

/-- Acceptance of command word `c` (R87, R112): `STATUS <- 0x1`, which clears `DONE` and `ERR` of the command before. -/
def accept (c : BitVec 8) (s : State) : State := { s with status := statusBusy, stage := .accepted c }

/-- Normal completion (R95): `STATUS <- 0x2`. -/
def reportDone (s : State) : State := { s with status := statusDone, stage := .idle }

/-- `OUT[0..OUTLEN-1]` become any value (R107, U7), inside the capacity; every other index keeps its byte. -/
def scrambleOut (s : State) : State :=
  { s with
    out := s.out.writeBytes 0 ((List.range (min s.outlen.toNat Config.outMax)).map (Config.freeOutByte s.freeCtr))
    freeCtr := s.freeCtr + 1 }

/-- The command is abandoned: no operation in progress and no digest request outstanding (R106, R107). -/
def abandon (s : State) : State := { s with stage := .idle, digestReq := none }

/-- Taking an error. InvalidArgument (R106): abandon the command, `ZERO`, `STATUS <- 0x6`. InternalInvariantViolation (R107): the
same with `STATUS <- 0xA`, and `OUT[0..OUTLEN-1]` is then any value. Nothing is saved and control goes nowhere (R111); there is
no return, the next `accept` clears the report (R112). -/
def raise (k : ErrorKind) (s : State) : State :=
  let e := { eraseInternal (abandon s) with status := statusError k }
  match k with
  | .invalidArgument => e
  | .internalInvariantViolation => scrambleOut e

end Sys2Proof.Machine
end

