-- ==== Sys2Proof/Machine/CipherUnit.lean ====
section
/-! DEFINITION. Unit `core` (`spec/40_cipher_core.md`): the round function F, and the operations `INIT`, `ENCB`, `ENCW`. -/

namespace Sys2Proof.Machine

/-- CipherState as `INIT` loads it (R70). -/
def initialCipher : CipherState := ⟨pInit, sInit⟩

/-- `S[t][k]` for a byte `k` (R19). -/
def sboxWord (c : CipherState) (t : Fin 4) (k : Byte) : Word := c.S[t][k.toFin]

/-- The round function (R71): `((S[0][b0] + S[1][b1]) XOR S[2][b2]) + S[3][b3]`, left to right. -/
def roundFunction (c : CipherState) (x : Word) : Word :=
  ((sboxWord c 0 (wordByte x 0) + sboxWord c 1 (wordByte x 1)) ^^^ sboxWord c 2 (wordByte x 2)) +
    sboxWord c 3 (wordByte x 3)

/-- Round `i + 1` of `ENCB` (R72) on the halves `(a, b)`: `b <- b XOR F(a) XOR P[i+1]`, then the halves are swapped. -/
def feistelRound (c : CipherState) (h : Block) (i : Fin 16) : Block :=
  ⟨h.R ^^^ roundFunction c h.L ^^^ c.P[i.val + 1], h.L⟩

/-- `ENCB(L, R)` (R72): whitening with `P[0]`, sixteen rounds, `P[17]` on the left result. -/
@[irreducible] def encryptBlock (c : CipherState) (x : Block) : Block :=
  let h := (List.finRange 16).foldl (feistelRound c) ⟨x.L ^^^ c.P[0], x.R⟩
  ⟨h.R ^^^ c.P[17], h.L⟩

/-- Round `i` of the textbook form (R74). -/
def textbookRound (c : CipherState) (h : Block) (i : Fin 16) : Block :=
  let l := h.L ^^^ c.P[i.val]
  ⟨h.R ^^^ roundFunction c l, l⟩

/-- `ENCB_textbook(L, R)` (R74): the customary form, in which `P[16]` and `P[17]` go on the final halves. -/
@[irreducible] def encryptBlockTextbook (c : CipherState) (x : Block) : Block :=
  let h := (List.finRange 16).foldl (textbookRound c) x
  ⟨h.R ^^^ c.P[17], h.L ^^^ c.P[16]⟩

/-- The words of `ENCW` pair by pair (R73); a word without a partner is left as it is (no caller gives one: an odd count is
refused before). -/
def encryptWords (c : CipherState) : List Word → List Word
  | l :: r :: ws =>
    let x := encryptBlock c ⟨l, r⟩
    x.L :: x.R :: encryptWords c ws
  | [w] => [w]
  | [] => []

theorem encryptWords_length (c : CipherState) (ws : List Word) : (encryptWords c ws).length = ws.length := by
  fun_induction encryptWords c ws <;> simp_all

/-- `ENCW(n, W)` (R73): `none` when the count is odd, checked before any block is encrypted (D16). -/
def encryptWordsChecked (c : CipherState) (ws : List Word) : Option (List Word) :=
  if ws.length % 2 = 0 then some (encryptWords c ws) else none

/-- `ENCW(8, W)` as `BHASH` calls it (R82 step 5). -/
@[irreducible] def encryptEight (c : CipherState) (w : Vector Word 8) : Vector Word 8 :=
  ⟨(encryptWords c w.toList).toArray, by simp [encryptWords_length]⟩

/-- `INIT()` on the state (R70). -/
def initCipher (s : State) : State := { s with cipher := initialCipher }

/-- `INIT` (R70): all of `P` and `S` become the constants, nothing else changes. -/
def execInit (s : State) : Host.Outcome State Fault Refusal := .next (initCipher s)

/-- `ENCB` (R72): the results go to the caller, `P` and `S` are only read. -/
def execEncb (s : State) : Host.Outcome State Fault Refusal :=
  let x := encryptBlock s.cipher ⟨s.ops.left, s.ops.right⟩
  .next { s with res := { s.res with left := x.L, right := x.R } }

/-- `ENCW` (R73): the results go to the caller; an odd count raises InternalInvariantViolation (R105, R107). -/
def execEncw (s : State) : Host.Outcome State Fault Refusal :=
  match encryptWordsChecked s.cipher s.ops.words with
  | some ws => .next { s with res := { s.res with words := ws } }
  | none => .next (raise .internalInvariantViolation s)

end Sys2Proof.Machine
end

