-- ==== Sys2Proof/Machine/KeySchedule.lean ====
section
/-! DEFINITION. Unit `ksched` (`spec/41_key_schedule.md`): the operations `XWORD`, `SKEY`, `SKEYSALT`. -/

namespace Sys2Proof.Machine

/-- The cursor a byte is read at: wrapped to 0 when it reaches or exceeds the length (R76). -/
def wrapCursor (len cur : Nat) : Nat := if len ≤ cur then 0 else cur

/-- One byte of `XWORD` (R76): wrap, shift the byte in, advance. -/
def extractByte (B : List Byte) (x : Word × Nat) : Word × Nat :=
  let at_ := wrapCursor B.length x.2
  (pushByte x.1 (B.getD at_ 0), at_ + 1)

/-- `XWORD(B, len, cur)` for a source that is not empty (R76): four bytes, big-endian, circular. -/
def extractWord (B : List Byte) (cur : Nat) : Word × Nat := iter (extractByte B) 4 (0, cur)

/-- `XWORD` with its check (R76, D17): `none` for an empty source. -/
def extractWordChecked (B : List Byte) (cur : Nat) : Option (Word × Nat) :=
  if B.length = 0 then none else some (extractWord B cur)

/-- One step of P mixing (R77 phase 1): `P[i] <- P[i] XOR w`, the cursor moves on. -/
def mixStep (K : List Byte) (x : CipherState × Nat) (i : Fin 18) : CipherState × Nat :=
  let w := extractWord K x.2
  ({ x.1 with P := x.1.P.set i (x.1.P[i] ^^^ w.1) }, w.2)

/-- P mixing (R77 and R78, phase 1): the key cursor starts at 0; the result is the tables and the final cursor. -/
@[irreducible] def mixKey (K : List Byte) (c : CipherState) : CipherState × Nat := (List.finRange 18).foldl (mixStep K) (c, 0)

/-- Where one pair of words is stored (R77 phase 2): `P[2i], P[2i+1]`, or `S[t][2q], S[t][2q+1]`. -/
inductive Slot where
  | p (i : Fin 9)
  | s (t : Fin 4) (q : Fin 128)
  deriving DecidableEq, Repr

/-- The 521 pairs in order (R77, R78): 9 pairs of `P`, then the 4 tables in table order, 128 pairs each. -/
def scheduleSlots : List Slot :=
  (List.finRange 9).map Slot.p ++ (List.finRange 4).flatMap fun t => (List.finRange 128).map (Slot.s t)

/-- The pair of words at a slot. -/
def readSlot (c : CipherState) : Slot → Block
  | .p i => ⟨c.P[2 * i.val], c.P[2 * i.val + 1]⟩
  | .s t q => ⟨c.S[t][2 * q.val], c.S[t][2 * q.val + 1]⟩

/-- Storing a pair at a slot: the left word in the even place, the right word in the odd place (R77). -/
def storeSlot (c : CipherState) (x : Block) : Slot → CipherState
  | .p i => { c with P := (c.P.set (2 * i.val) x.L).set (2 * i.val + 1) x.R }
  | .s t q => { c with S := c.S.set t ((c.S[t].set (2 * q.val) x.L).set (2 * q.val + 1) x.R) }

/-- What a schedule threads through its pairs (R79): the tables as they are now, RunningBlock, and the salt cursor. -/
structure Sched where
  cipher : CipherState
  rb : Block
  cur : Nat
  deriving DecidableEq, Repr

/-- The salt injection of `SKEYSALT` (R78): the next two salt words are XORed into `RB.L` and `RB.R`. -/
def injectSalt (Sa : List Byte) (x : Sched) : Sched :=
  let u := extractWord Sa x.cur
  let v := extractWord Sa u.2
  { x with rb := ⟨x.rb.L ^^^ u.1, x.rb.R ^^^ v.1⟩, cur := v.2 }

/-- One pair of phase 2 (R77, R78, R79): inject, encrypt RunningBlock under the tables as they are now, store the result. -/
def pairStep (inject : Sched → Sched) (x : Sched) (slot : Slot) : Sched :=
  let y := inject x
  let rb := encryptBlock y.cipher y.rb
  { y with cipher := storeSlot y.cipher rb slot, rb := rb }

/-- Phase 2 (R77, R78): RunningBlock starts at zero and runs through all 521 pairs. -/
@[irreducible] def rederive (inject : Sched → Sched) (c : CipherState) (cur : Nat) : Sched :=
  scheduleSlots.foldl (pairStep inject) ⟨c, ⟨0, 0⟩, cur⟩

/-- `SKEY(K, klen)` on the tables (R77); the salt cursor is not used. -/
def keySchedule (K : List Byte) (c : CipherState) : Sched := rederive id (mixKey K c).1 0

/-- `SKEYSALT(K, klen, Sa, slen)` on the tables (R78); the salt cursor starts at 0. -/
def saltedKeySchedule (K Sa : List Byte) (c : CipherState) : Sched := rederive (injectSalt Sa) (mixKey K c).1 0

/-- The result of a schedule goes into `P`, `S`, `RB` and `KCUR` (R77). -/
def storeSchedule (r : Sched) (k : Nat) (s : State) : State := { s with cipher := r.cipher, rb := r.rb, kcur := k }

/-- The result of a salted schedule goes into `P`, `S`, `RB`, `KCUR` and `SCUR` (R78). -/
def storeSaltedSchedule (r : Sched) (k : Nat) (s : State) : State :=
  { s with cipher := r.cipher, rb := r.rb, kcur := k, scur := r.cur }

/-- `SKEY(K, klen)` on the state (R77). -/
def scheduleKey (K : List Byte) (s : State) : State := storeSchedule (keySchedule K s.cipher) (mixKey K s.cipher).2 s

/-- `SKEYSALT(K, klen, Sa, slen)` on the state (R78). -/
def scheduleKeySalt (K Sa : List Byte) (s : State) : State :=
  storeSaltedSchedule (saltedKeySchedule K Sa s.cipher) (mixKey K s.cipher).2 s

/-- `XWORD` (R76): the word and the cursor go to the caller; an empty source raises InternalInvariantViolation (R105, R107). -/
def execXword (s : State) : Host.Outcome State Fault Refusal :=
  match extractWordChecked (sourceBytes s s.ops.key) s.ops.cur with
  | some w => .next { s with res := { s.res with word := w.1, cur := w.2 } }
  | none => .next (raise .internalInvariantViolation s)

/-- `SKEY` (R77); an empty key would raise in the first `XWORD` below it and is passed on (R115). -/
def execSkey (s : State) : Host.Outcome State Fault Refusal :=
  let K := sourceBytes s s.ops.key
  if K.length = 0 then .next (raise .internalInvariantViolation s) else .next (scheduleKey K s)

/-- `SKEYSALT` (R78); an empty key or salt would raise in an `XWORD` below it and is passed on (R115). -/
def execSkeysalt (s : State) : Host.Outcome State Fault Refusal :=
  let K := sourceBytes s s.ops.key
  let Sa := sourceBytes s s.ops.salt
  if K.length = 0 ∨ Sa.length = 0 then .next (raise .internalInvariantViolation s) else .next (scheduleKeySalt K Sa s)

end Sys2Proof.Machine
end

