-- ==== Sys2Proof/Machine/HashEngine.lean ====
section
/-! DEFINITION. Unit `bhash` (`spec/42_hash_engine.md`): the operation `BHASH`, step by step as R82 numbers them. -/

namespace Sys2Proof.Machine

/-- `MAGIC` as eight big-endian words (R43, R82 step 4). -/
@[irreducible] def magicWords : Vector Word 8 := Vector.ofFn fun j => beWord magic (4 * j.val)

/-- Step 6 of R82 (R44): byte `4j + k` of the hash is byte `k` of `LE32(CDATA[j])`, words in index order. -/
@[irreducible] def encodeHash (w : Vector Word 8) : Vector Byte 32 :=
  Vector.ofFn fun n => (le32 w[n.val / 4]).getD (n.val % 4) 0

/-- Step 2: `SKEYSALT(PH, 64, SD, 64)`. -/
def hashSalted (s : State) : State := scheduleKeySalt (sourceBytes s .ph) (sourceBytes s .sd) s

/-- Step 3, first half: `SKEY(SD, 64)`, the salt digest as key. -/
def hashExpandSalt (s : State) : State := scheduleKey (sourceBytes s .sd) s

/-- Step 3, second half: `SKEY(PH, 64)`. -/
def hashExpandKey (s : State) : State := scheduleKey (sourceBytes s .ph) s

/-- Step 4: the constant plaintext into `CDATA`. -/
def hashLoad (s : State) : State := { s with cdata := magicWords }

/-- Step 5, once: `CDATA <- ENCW(8, CDATA)`. -/
def hashEncrypt (s : State) : State := { s with cdata := encryptEight s.cipher s.cdata }

/-- Step 6: the result into the caller's `TMP`. -/
def hashEncode (s : State) : State := { s with tmp := encodeHash s.cdata }

/-- `BHASH(PH, SD)` (R82). -/
def hashEngine (s : State) : State :=
  let s := hashSalted (initCipher s)
  let s := iter (fun s => hashExpandKey (hashExpandSalt s)) Config.eksIter s
  let s := iter hashEncrypt Config.encIter (hashLoad s)
  hashEncode s

/-- `BHASH` (R82): no error conditions. -/
def execBhash (s : State) : Host.Outcome State Fault Refusal := .next (hashEngine s)

end Sys2Proof.Machine
end

