-- ==== Sys2Proof/Machine/PbkdfDriver.lean ====
section
/-! DEFINITION. Unit `pbkdf` (`spec/43_pbkdf_driver.md`): `DERIVE` as one atomic step (R7, R87), the `SHA512` request and `ZERO`. -/

namespace Sys2Proof.Machine

/-- Step 1 (R89): the pre-hash of the password. -/
def storePreHash (m : List Byte) (s : State) : State := { s with ph := Config.sha512 m }

/-- Step 2 (R90): `BLKCNT <- ceil(OUTLEN / 32)`, and the block loop starts at `BLKIDX = 0`. -/
def countBlocks (s : State) : State := { s with blkcnt := ceilDiv s.outlen.toNat Config.hlen, blkidx := 0 }

/-- Steps 3a and 3c: a digest becomes the salt input of the next hash (R91, R93). -/
def storeSaltDigest (m : List Byte) (s : State) : State := { s with sd := Config.sha512 m }

/-- Step 3b (R92): `ACC` is assigned the first hash of the block. -/
def assignAcc (s : State) : State := { s with acc := s.tmp }

/-- Step 3c (R93): `ACC[i] <- ACC[i] XOR TMP[i]` for all 32 bytes. -/
def xorAcc (s : State) : State := { s with acc := Vector.zipWith (· ^^^ ·) s.acc s.tmp }

/-- One write of the scatter (R94): `OUT[i * BLKCNT + BLKIDX] <- ACC[i]` if that index is below `OUTLEN`. -/
def scatterByte (s : State) (out : Memory) (i : Fin 32) : Memory :=
  let d := i.val * s.blkcnt + s.blkidx
  if d < s.outlen.toNat then out.write d s.acc[i] else out

/-- `OUT` after the 32 guarded, strided writes of the scatter (R94). -/
@[irreducible] def scatteredOut (s : State) : Memory := (List.finRange 32).foldl (scatterByte s) s.out

/-- Step 3d (R94). -/
def scatterAcc (s : State) : State := { s with out := scatteredOut s }

/-- Step 3c for one round (R93): digest of the latest hash, hash, XOR. -/
def stretchRound (s : State) : State := xorAcc (hashEngine (storeSaltDigest (hashMessage s) s))

/-- The stretching loop (R93): `n` more rounds, the next one being round `r`. -/
def stretchRounds : Nat → Nat → State → State
  | 0, _, s => s
  | n + 1, r, s => stretchRounds n (r + 1) (stretchRound { s with rnd := r })

/-- Steps 3a to 3d for the block in `BLKIDX` (R91 to R94). -/
def deriveBlock (s : State) : State :=
  let s := assignAcc (hashEngine (storeSaltDigest (saltMessage s) s))
  scatterAcc (stretchRounds (s.rounds.toNat - 1) 1 s)

/-- The block loop (R87 step 3): `n` more blocks, the next one being block `b`. -/
def deriveBlocks : Nat → Nat → State → State
  | 0, _, s => s
  | n + 1, b, s => deriveBlocks n (b + 1) (deriveBlock { s with blkidx := b })

/-- `DERIVE()` after its validation (R87 steps 1 to 4 and completion). -/
def deriveAll (s : State) : State :=
  let s := countBlocks (storePreHash (passwordBytes s) s)
  reportDone (eraseInternal (deriveBlocks s.blkcnt 0 s))

/-- `DERIVE()` (R87, R88): validation before any computation. -/
def derive (s : State) : State := if operandsRefused s then raise .invalidArgument s else deriveAll s

/-- The command word of `DERIVE`, the only one the host register `CMD` executes (R63). -/
def deriveCode : BitVec 8 := 0x08

/-- `DERIVE` as one atomic step (R7, R87): accepted while `BUSY = 0`, ignored while `BUSY = 1` (R52). -/
def execDerive (s : State) : Host.Outcome State Fault Refusal :=
  if s.busy then .next s else .next (derive (accept deriveCode s))

/-- `SHA512` (R96): the digest of the message goes to the caller. -/
def execSha512 (s : State) : Host.Outcome State Fault Refusal :=
  .next { s with res := { s.res with digest := Config.sha512 s.ops.msg } }

/-- `ZERO` (R97). -/
def execZero (s : State) : Host.Outcome State Fault Refusal := .next (eraseInternal s)

end Sys2Proof.Machine
end

