-- ==== Sys2Proof/Machine/Dispatch.lean ====
section
/-! DEFINITION. The meaning of every operation of R60, one arm each. -/

namespace Sys2Proof.Machine

def exec (i : Instr) (s : State) : Host.Outcome State Fault Refusal :=
  match i with
  | .init => Sys2Proof.Machine.execInit s
  | .encb => Sys2Proof.Machine.execEncb s
  | .encw => Sys2Proof.Machine.execEncw s
  | .xword => Sys2Proof.Machine.execXword s
  | .skey => Sys2Proof.Machine.execSkey s
  | .skeysalt => Sys2Proof.Machine.execSkeysalt s
  | .bhash => Sys2Proof.Machine.execBhash s
  | .derive => Sys2Proof.Machine.execDerive s
  | .zero => Sys2Proof.Machine.execZero s
  | .sha512 => Sys2Proof.Machine.execSha512 s

end Sys2Proof.Machine
end

