-- ==== Sys2Proof/Decode.lean ====
section
/-! DEFINITION. The decoder and the encoder of the one format of `spec/30_encoding.md` R59: an 8-bit command word whose bits 7:4
are zero and whose bits 3:0 are the operation code of R60. -/

namespace Sys2Proof

open Machine

/-- Why bytes are no operation: there are none, the `zero` field is set, or the code is reserved (R59, R63). -/
inductive DecodeError where
  | noByte
  | zeroFieldSet (w : BitVec 8)
  | reservedOp (op : BitVec 4)
  deriving DecidableEq, Repr

/-- The operation that an assigned `op` value names (R60). -/
def instrOfOp (op : BitVec 4) : Option Instr :=
  match op.toNat with
  | 0x1 => some .init
  | 0x2 => some .encb
  | 0x3 => some .encw
  | 0x4 => some .xword
  | 0x5 => some .skey
  | 0x6 => some .skeysalt
  | 0x7 => some .bhash
  | 0x8 => some .derive
  | 0x9 => some .zero
  | 0xA => some .sha512
  | _ => none

/-- R59, R63: the operation of a command word, or why it is reserved. -/
def decodeWord (w : BitVec 8) : Except DecodeError Instr :=
  if zeroField w = 0 then
    match instrOfOp (opField w) with
    | some i => .ok i
    | none => .error (.reservedOp (opField w))
  else .error (.zeroFieldSet w)

/-- The decoder on any bytes: one command word is read, the rest handed back. There is one length (R59, R65). -/
def decode : List Byte → Except DecodeError (Instr × List Byte)
  | [] => .error .noByte
  | w :: rest =>
    match decodeWord w with
    | .ok i => .ok (i, rest)
    | .error e => .error e

/-- The `op` value of an operation (R60). -/
def opOfInstr : Instr → BitVec 4
  | .init => 0x1
  | .encb => 0x2
  | .encw => 0x3
  | .xword => 0x4
  | .skey => 0x5
  | .skeysalt => 0x6
  | .bhash => 0x7
  | .derive => 0x8
  | .zero => 0x9
  | .sha512 => 0xA

/-- R59: the command word of an operation, the `zero` field above the `op` field. -/
def encodeWord (i : Instr) : BitVec 8 := (0 : BitVec 4) ++ opOfInstr i

/-- The encoder: the one byte of an operation. -/
def encode (i : Instr) : List Byte := [encodeWord i]

/-- The bytes of an instruction whose bits, numbered as `spec/opcode_table.json` numbers them, are `w`: the one byte of the
command word, the bits at and above `nbits` being 0. -/
def tableWordBytes (nbits w : Nat) : List Byte := [BitVec.ofNat 8 (w % 2 ^ nbits)]

/-- The operation the decoder reads from a word of the opcode table. -/
def decodeTableWord (nbits w : Nat) : Option Instr :=
  match decode (tableWordBytes nbits w) with
  | .ok (i, _) => some i
  | .error _ => none

end Sys2Proof
end

