-- ==== Sys2Proof/Machine/Sequencer.lean ====
section
/-! DEFINITION. The sequencer (`spec/10_state.md` R30): a host command refined into the internal operations in the order of
`spec/43_pbkdf_driver.md` R87 (R7 allows this reading beside the atomic one of PbkdfDriver.lean). -/

namespace Sys2Proof.Machine

/-- Sending a message to the digest port (R96). -/
def sendDigest (m : List Byte) (next : Stage) (s : State) : State := { s with digestReq := some m, stage := next }

/-- The answer of the digest port (R96): the request is no longer outstanding and `store` puts the digest where the caller wants
it. Without a request there is no answer. -/
def takeDigest (store : List Byte → State → State) (next : Stage) (s : State) : State :=
  match s.digestReq with
  | some m => { store m s with digestReq := none, stage := next }
  | none => s

/-- The check of an accepted command word and the validation of `DERIVE` (R63, R87, R88). -/
def checkCommand (c : BitVec 8) (s : State) : State :=
  if c = deriveCode then
    if operandsRefused s then raise .invalidArgument s else { s with stage := .preHash }
  else raise .invalidArgument s

/-- One step of `BHASH` (R82): one operation of the units below. -/
def advanceHash (again : Bool) (h : HashStage) (s : State) : State :=
  match h with
  | .init => { initCipher s with stage := .hash again .salted }
  | .salted => { hashSalted s with stage := .hash again (.expandSalt 0) }
  | .expandSalt n => { hashExpandSalt s with stage := .hash again (.expandKey n) }
  | .expandKey n =>
    { hashExpandKey s with
      stage := .hash again (if n + 1 < Config.eksIter then .expandSalt (n + 1) else .load) }
  | .load => { hashLoad s with stage := .hash again (.encrypt 0) }
  | .encrypt n =>
    { hashEncrypt s with
      stage := .hash again (if n + 1 < Config.encIter then .encrypt (n + 1) else .encode) }
  | .encode => { hashEncode s with stage := .accumulate again }

/-- After a round (R93): round `r` if `r ≤ ROUNDS - 1`, else the scatter. -/
def enterRound (r : Nat) (s : State) : State :=
  if r < s.rounds.toNat then { s with rnd := r, stage := .reDigest } else { s with stage := .scatter }

/-- After a block (R87): the next block if there is one, else the erasure. -/
def enterBlock (b : Nat) (s : State) : State :=
  if b < s.blkcnt then { s with blkidx := b, stage := .saltDigest } else { s with stage := .erase }

/-- One move of the sequencer (R30, R87). An idle block stays as it is. -/
def advance (s : State) : State :=
  match s.stage with
  | .idle => s
  | .accepted c => checkCommand c s
  | .preHash => sendDigest (passwordBytes s) .preHashAnswer s
  | .preHashAnswer => takeDigest storePreHash .blockCount s
  | .blockCount => { countBlocks s with stage := .saltDigest }
  | .saltDigest => sendDigest (saltMessage s) .saltDigestAnswer s
  | .saltDigestAnswer => takeDigest storeSaltDigest (.hash false .init) s
  | .hash again h => advanceHash again h s
  | .accumulate false => enterRound 1 (assignAcc s)
  | .accumulate true => enterRound (s.rnd + 1) (xorAcc s)
  | .reDigest => sendDigest (hashMessage s) .reDigestAnswer s
  | .reDigestAnswer => takeDigest storeSaltDigest (.hash true .init) s
  | .scatter => enterBlock (s.blkidx + 1) (scatterAcc s)
  | .erase => { eraseInternal s with stage := .report }
  | .report => reportDone s

end Sys2Proof.Machine
end

