-- ==== Sys2Proof/Machine/HostPort.lean ====
section
/-! DEFINITION. The host port (`spec/10_state.md` R24 to R28, `spec/20_memory.md` R49, R52, `spec/30_encoding.md` R67): what one line of
a host script does to the block. -/

namespace Sys2Proof.Machine

/-- The capacity of a host buffer (R28). -/
def bufferCapacity : HostBuf → Nat
  | .pwd => Config.pwMax
  | .salt => Config.saltMax
  | .out => Config.outMax

/-- The contents of a host buffer. -/
def bufferOf (s : State) : HostBuf → Memory
  | .pwd => s.pwd
  | .salt => s.salt
  | .out => s.out

/-- Replacing the contents of a host buffer. -/
def withBuffer (s : State) (b : HostBuf) (m : Memory) : State :=
  match b with
  | .pwd => { s with pwd := m }
  | .salt => { s with salt := m }
  | .out => { s with out := m }

/-- What a host read of a register returns (R24, R26, R52): `CMD` reads 0; while `BUSY = 1` only `STATUS` has its value. -/
def hostRegister (s : State) (r : HostReg) : Word :=
  match r with
  | .status => s.status
  | .cmd => 0
  | .rounds => if s.busy then 0 else s.rounds
  | .outlen => if s.busy then 0 else s.outlen
  | .pwlen => if s.busy then 0 else s.pwlen
  | .saltlen => if s.busy then 0 else s.saltlen

/-- A host write of `c` to `CMD` (R26, R52, R87): acceptance while idle, ignored while `BUSY = 1`. -/
def hostCommand (c : BitVec 8) (s : State) : State := if s.busy then s else accept c s

/-- A host write to a register (R24, R26, R27, R52): ignored while `BUSY = 1`; `STATUS` ignores it always; `CMD` is the trigger. -/
def hostWriteRegister (r : HostReg) (v : Word) (s : State) : State :=
  match r with
  | .status => s
  | .cmd => hostCommand (v.setWidth 8) s
  | .rounds => if s.busy then s else { s with rounds := v }
  | .outlen => if s.busy then s else { s with outlen := v }
  | .pwlen => if s.busy then s else { s with pwlen := v }
  | .saltlen => if s.busy then s else { s with saltlen := v }

/-- A host write of bytes to a buffer (R28, R49, R52): ignored while `BUSY = 1`; past the capacity there is no such index. -/
def hostWriteBytes (b : HostBuf) (i : Nat) (bytes : List Byte) (s : State) : Host.Outcome State Fault Refusal :=
  if s.busy then .next s
  else if i + bytes.length ≤ bufferCapacity b then .next (withBuffer s b ((bufferOf s b).writeBytes i bytes))
  else .fault (.hostIndexOutOfRange b i)

/-- A host read of bytes from a buffer (R28, R49, R52): zeros while `BUSY = 1`; past the capacity there is no such index. -/
def hostReadBytes (b : HostBuf) (i n : Nat) (s : State) : Host.Outcome State Fault Refusal :=
  if s.busy then .next { s with rdBytes := List.replicate n 0 }
  else if i + n ≤ bufferCapacity b then .next { s with rdBytes := (bufferOf s b).readBytes i n }
  else .fault (.hostIndexOutOfRange b i)

/-- Hardware reset (R126): everything of the block is as `State.reset` says, in the middle of a command too. The host's
remaining script and the count of free values are not the block's and stay. -/
def hardwareReset (s : State) : State := { State.reset with script := s.script, freeCtr := s.freeCtr }

/-- One line of the host's script, already taken off `script`, at a block in state `s`. `pause` lets the block make one move. -/
def hostAction (a : HostAction) (s : State) : Host.Outcome State Fault Refusal :=
  match a with
  | .wr r v => .next (hostWriteRegister r v s)
  | .wrb b i bytes => hostWriteBytes b i bytes s
  | .cmd c => .next (hostCommand c s)
  | .wait => .next { s with rdWord := hostRegister s .status }
  | .rd r => .next { s with rdWord := hostRegister s r }
  | .rdb b i n => hostReadBytes b i n s
  | .reset => .next (hardwareReset s)
  | .pause => .next (advance s)

end Sys2Proof.Machine
end

