-- ==== Sys2Proof/Machine/Presented.lean ====
section
/-! DEFINITION. What stands in the place of an instruction fetch (`spec/30_encoding.md` R59, R61): the operation code presented on the
operation-select lines, and the host's next line when none is presented. -/

namespace Sys2Proof.Machine

/-- The operation a presented code stands for; a reserved code has none (R59, R63). -/
def presentedInstr (w : BitVec 8) : Option Instr :=
  match decode [w] with
  | .ok (i, _) => some i
  | .error _ => none

/-- The presented operation is taken off the operation-select lines. -/
def takePresented (s : State) : State := { s with opSel := none }

/-- No operation is presented: the host's next line, or one move of the sequencer while the host is silent or waits for
`DONE = 1` (R16, R67). -/
def hostMove (s : State) : Host.Outcome State Fault Refusal :=
  match s.script with
  | [] => .next (advance s)
  | .wait :: rest =>
    if s.done then hostAction .wait { s with script := rest }
    else .next (advance { s with rdWord := hostRegister s .status })
  | a :: rest => hostAction a { s with script := rest }

end Sys2Proof.Machine
end

