-- ==== Sys2Proof/Machine/Step.lean ====
section
/-! DEFINITION. One step of the machine: the presented operation if there is one, else what the host does next. -/

namespace Sys2Proof.Machine

/-- One step. An operation presented on the unit interface is taken off the lines and run to completion (R61); a reserved code
is refused, since R63 says that one cannot occur there. -/
def step (s : State) : Host.Outcome State Fault Refusal :=
  match s.opSel with
  | some w =>
    match presentedInstr w with
    | some i => exec i (takePresented s)
    | none => .refused (.reservedOperation w)
  | none => hostMove s

/-- `s` with the word of an instruction presented where the next step takes it: on the operation-select lines. -/
def State.withFetchWord (s : State) (nbits w : Nat) : State := { s with opSel := (tableWordBytes nbits w).head? }

end Sys2Proof.Machine
end

