-- ==== Sys2Proof/Safety.lean ====
section
/-! DEFINITION. The terms the statements use: valid operands, the erased state, the invariants of a block that only a host drives,
what an error leaves, and the closed form of the whole function (`spec/44_common_laws.md` R151). -/

namespace Sys2Proof.Machine

/-- `k` steps of the machine, stopping at the first fault or refusal (`Host.Core.run` at the model's own types). -/
def run (k : Nat) (s : State) : Host.Outcome State Fault Refusal := Host.Core.run Sys2Proof.core k s

/-- The operands `DERIVE` accepts (R62, R88). -/
structure OperandsValid (s : State) : Prop where
  pwlen_pos : 1 ≤ s.pwlen.toNat
  pwlen_cap : s.pwlen.toNat ≤ Config.pwMax
  saltlen_pos : 1 ≤ s.saltlen.toNat
  saltlen_cap : s.saltlen.toNat ≤ Config.saltMax
  rounds_pos : 1 ≤ s.rounds.toNat
  outlen_pos : 1 ≤ s.outlen.toNat
  outlen_cap : s.outlen.toNat ≤ Config.outMax

/-- Every piece of storage the host cannot see is zero (R35(e), R97). -/
structure InternalZero (s : State) : Prop where
  cipher : s.cipher = CipherState.zeroes
  rb : s.rb = ⟨0, 0⟩
  kcur : s.kcur = 0
  scur : s.scur = 0
  cdata : s.cdata = Vector.replicate 8 0
  ph : s.ph = Vector.replicate 64 0
  sd : s.sd = Vector.replicate 64 0
  tmp : s.tmp = Vector.replicate 32 0
  acc : s.acc = Vector.replicate 32 0
  blkcnt : s.blkcnt = 0
  blkidx : s.blkidx = 0
  rnd : s.rnd = 0

/-- The three host buffers are in canonical form. -/
structure MemoryCanonical (s : State) : Prop where
  pwd : s.pwd.wf
  salt : s.salt.wf
  out : s.out.wf

/-- The three host buffers list no index past their capacity (R28). -/
structure MemoryWithin (s : State) : Prop where
  pwd : s.pwd.within Config.pwMax
  salt : s.salt.within Config.saltMax
  out : s.out.within Config.outMax

/-- `t` holds the operands of `s` that only the host writes (R24, R28, R35(b)). -/
structure SameHostOperands (s t : State) : Prop where
  pwd : t.pwd = s.pwd
  salt : t.salt = s.salt
  rounds : t.rounds = s.rounds
  outlen : t.outlen = s.outlen
  pwlen : t.pwlen = s.pwlen
  saltlen : t.saltlen = s.saltlen

/-- `t` holds the model's own interface fields of `s`: the unit interface, the script and what the host has read. -/
structure SameInterface (s t : State) : Prop where
  opSel : t.opSel = s.opSel
  ops : t.ops = s.ops
  res : t.res = s.res
  script : t.script = s.script
  rdWord : t.rdWord = s.rdWord
  rdBytes : t.rdBytes = s.rdBytes

/-- InternalInvariantViolation has been taken from `s` (R107): everything internal is zero, `STATUS = 0xA`, no command runs, the
host's operands are as before and so is `OUT` from index `OUTLEN` on. Of `OUT[0..OUTLEN-1]` it says nothing. -/
structure ViolationTaken (s t : State) : Prop where
  status : t.status = 0xA
  stage : t.stage = .idle
  port : t.digestReq = none
  zero : InternalZero t
  operands : SameHostOperands s t
  interface : SameInterface s t
  out : ∀ d, s.outlen.toNat ≤ d → t.out.read d = s.out.read d

/-- The stages in which a request is outstanding on the digest port (R96). -/
def Stage.awaitsDigest : Stage → Bool
  | .preHashAnswer | .saltDigestAnswer | .reDigestAnswer => true
  | .idle | .accepted _ | .preHash | .blockCount | .saltDigest | .hash _ _ | .accumulate _ | .reDigest | .scatter
  | .erase | .report => false

/-- The stages inside the block loop (R87 step 3). -/
def Stage.inBlockLoop : Stage → Bool
  | .saltDigest | .saltDigestAnswer | .hash _ _ | .accumulate _ | .reDigest | .reDigestAnswer | .scatter => true
  | .idle | .accepted _ | .preHash | .preHashAnswer | .blockCount | .erase | .report => false

/-- The stages inside the stretching loop (R87 step 3c). -/
def Stage.inRoundLoop : Stage → Bool
  | .hash again _ | .accumulate again => again
  | .reDigest | .reDigestAnswer => true
  | .idle | .accepted _ | .preHash | .preHashAnswer | .blockCount | .saltDigest | .saltDigestAnswer | .scatter | .erase
  | .report => false

/-- The counters of the two fixed loops of `BHASH` are in range (R82 steps 3 and 5). -/
def Stage.countersInRange : Stage → Bool
  | .hash _ (.expandSalt n) | .hash _ (.expandKey n) => n < Config.eksIter
  | .hash _ (.encrypt n) => n < Config.encIter
  | .hash _ .init | .hash _ .salted | .hash _ .load | .hash _ .encode => true
  | .idle | .accepted _ | .preHash | .preHashAnswer | .blockCount | .saltDigest | .saltDigestAnswer | .accumulate _
  | .reDigest | .reDigestAnswer | .scatter | .erase | .report => true

/-- The stages after the validation has passed and before the erasure (R88). -/
def Stage.afterValidation (g : Stage) : Bool :=
  g.inBlockLoop || g == .preHash || g == .preHashAnswer || g == .blockCount

/-- A block that only its host drives: the invariants of R35 and R27 at `BUSY = 0`, and where the sequencer may stand with what
counters while `BUSY = 1` (R29, R30). -/
structure HostDriven (s : State) : Prop where
  /-- Nothing is presented on the unit interface from outside. -/
  quiet : s.opSel = none
  /-- R27: idle, `STATUS` is `0x0`, `0x2` or `0x6`. -/
  statusIdle : s.stage = .idle → s.status = 0x0 ∨ s.status = 0x2 ∨ s.status = 0x6
  /-- R27: while a command runs, `STATUS` is `0x1`. -/
  statusBusy : s.stage ≠ .idle → s.status = 0x1
  /-- R35(e): idle, or just checking or reporting, the internal storage is zero. -/
  erased : s.stage = .idle ∨ s.stage = .report ∨ (∃ c, s.stage = .accepted c) → InternalZero s
  /-- R96, R126: a request is outstanding exactly while its answer is awaited. -/
  port : s.digestReq.isSome = s.stage.awaitsDigest
  /-- R88: past the validation the operands are valid. -/
  operands : s.stage.afterValidation → OperandsValid s
  /-- R29, R90: the range of `BLKIDX` and the value of `BLKCNT` inside the block loop. -/
  blocks : s.stage.inBlockLoop → s.blkcnt = ceilDiv s.outlen.toNat 32 ∧ s.blkidx < s.blkcnt
  /-- R29: the range of `RND` inside the stretching loop. -/
  rounds : s.stage.inRoundLoop → 1 ≤ s.rnd ∧ s.rnd < s.rounds.toNat
  /-- R82: the range of the counters inside `BHASH`. -/
  counters : s.stage.countersInRange
  canonical : MemoryCanonical s
  within : MemoryWithin s

/-! The closed form of the whole function (R151). -/

/-- The tables after steps 1 to 3 of R82: `EXP^64(SKEYSALT(ph, sd)(INIT))`. -/
def expandedCipher (ph sd : Vector Byte 64) : CipherState :=
  iter (fun c => (keySchedule ph.toList (keySchedule sd.toList c).cipher).cipher) 64
    (saltedKeySchedule ph.toList sd.toList initialCipher).cipher

/-- `CDATA` after step 5 of R82: `ENC^64(BEW(MAGIC))` under those tables. -/
def encryptedMagic (ph sd : Vector Byte 64) : Vector Word 8 := iter (encryptEight (expandedCipher ph sd)) 64 magicWords

/-- `bhash(ph, sd)` of R151. -/
def bcryptHash (ph sd : Vector Byte 64) : Vector Byte 32 := encodeHash (encryptedMagic ph sd)

/-- `T(b, k + 1)` of R151, for a password digest and a salt. -/
def chainHash (ph : Vector Byte 64) (salt : List Byte) (b : Nat) : Nat → Vector Byte 32
  | 0 => bcryptHash ph (Config.sha512 (salt ++ be32 (BitVec.ofNat 32 (b + 1))))
  | k + 1 => bcryptHash ph (Config.sha512 (chainHash ph salt b k).toList)

/-- `T(b, 1) XOR ... XOR T(b, k + 1)` of R151, byte by byte. -/
def chainXor (ph : Vector Byte 64) (salt : List Byte) (b : Nat) : Nat → Vector Byte 32
  | 0 => chainHash ph salt b 0
  | k + 1 => Vector.zipWith (· ^^^ ·) (chainXor ph salt b k) (chainHash ph salt b (k + 1))

/-- `OUT[d]` of R151 for password `pw`, salt, `r` rounds and output length `n`: `A(d mod B)[d div B]` with `B = ceil(n / 32)`. -/
def derivedByte (pw salt : List Byte) (r n d : Nat) : Byte :=
  let B := (n + 31) / 32
  (chainXor (Config.sha512 pw) salt (d % B) (r - 1)).toList.getD (d / B) 0

/-! The circular reading of a byte source (R76, R77) and the course of a schedule (R79). -/

/-- Byte `j` of a source read circularly from its start. -/
def circularByte (B : List Byte) (j : Nat) : Byte := B.getD (j % B.length) 0

/-- The big-endian word whose first byte is byte `j` of the circular reading. -/
def circularWord (B : List Byte) (j : Nat) : Word :=
  joinBytes (circularByte B j) (circularByte B (j + 1)) (circularByte B (j + 2)) (circularByte B (j + 3))

/-- A schedule after its first `j` pairs (R79). -/
def scheduleCourse (inject : Sched → Sched) (c : CipherState) (cur j : Nat) : Sched :=
  (scheduleSlots.take j).foldl (pairStep inject) ⟨c, ⟨0, 0⟩, cur⟩

/-- The final tables, `RB`, and cursors of a run of the block loop over the block indices of a list, in that order (R98). -/
def deriveInOrder (l : List Nat) (s : State) : State := l.foldl (fun s b => deriveBlock { s with blkidx := b }) s

end Sys2Proof.Machine
end

