-- ==== Sys2Proof/WellFormed.lean ====
section
/-! DEFINITION. Well-formedness of command words (`spec/30_encoding.md` R59, R63), of operations and of their operands
(R73 and R76: the two internal preconditions). -/

namespace Sys2Proof

open Machine

/-- R59: the `zero` field must be `0000`. -/
def zeroFieldClear (w : BitVec 8) : Bool := zeroField w == 0

/-- R60, R63: codes `0x1` to `0xA` are assigned, `0x0` and `0xB` to `0xF` reserved. -/
def opAssigned (w : BitVec 8) : Bool := 1 ≤ (opField w).toNat && (opField w).toNat ≤ 10

/-- A command word that is not reserved (R63). -/
def commandWordWf (w : BitVec 8) : Bool := zeroFieldClear w && opAssigned w

/-- Every operation is well-formed: no constructor carries an operand (R62). -/
def Instr.wf : Instr → Bool
  | .init | .encb | .encw | .xword | .skey | .skeysalt | .bhash | .derive | .zero | .sha512 => true

/-- The column "Accepted from host `CMD`" of R60: `DERIVE` alone (R63). -/
def Instr.acceptedFromHost : Instr → Bool
  | .derive => true
  | .init | .encb | .encw | .xword | .skey | .skeysalt | .bhash | .zero | .sha512 => false

/-- A byte source of length at least 1 (R76, R77 `klen ≥ 1`, R78 `slen ≥ 1`); `PH` and `SD` have 64 bytes. -/
def ByteSource.wf : ByteSource → Bool
  | .ph | .sd => true
  | .given bytes => !bytes.isEmpty

/-- The operands an operation may be given: an even word count (R73), non-empty byte sources (R76, R77, R78). -/
def operandsWf (i : Instr) (o : Operands) : Bool :=
  match i with
  | .encw => o.words.length % 2 == 0
  | .xword | .skey => o.key.wf
  | .skeysalt => o.key.wf && o.salt.wf
  | .init | .encb | .bhash | .derive | .zero | .sha512 => true

end Sys2Proof
end

