-- ==== Sys2Proof/Certificates/Slice0/Obligations.lean ====
section
/-! DEFINITION. The statements for the provers. OBLIGATIONS.json says of each which rule of `spec/` it formalises. -/

open Sys2Proof Sys2Proof.Machine

/-! ### Encoding (30_encoding.md) -/

/-- Decoding the byte of any operation gives it back, with the bytes that follow. -/
def Obligations.DecodeGivesBackEncoded : Prop :=
  ∀ (i : Instr) (rest : List Byte), decode (encode i ++ rest) = .ok (i, rest)

/-- R59, R63: a word decodes exactly when its zero field is clear and its code is 0x1 to 0xA, and then it is the word of what it
decodes to. -/
def Obligations.DecodeAcceptsExactlyTheAssignedWords : Prop :=
  ∀ w : BitVec 8,
    ((∃ i, decodeWord w = .ok i) ↔ zeroField w = 0 ∧ 1 ≤ (opField w).toNat ∧ (opField w).toNat ≤ 10) ∧
      ∀ i, decodeWord w = .ok i → encodeWord i = w

/-- R60: the ten command words written out as the table has them. -/
def Obligations.TableWordsDecode : Prop :=
  decodeWord 0b00000001 = .ok .init ∧ decodeWord 0b00000010 = .ok .encb ∧ decodeWord 0b00000011 = .ok .encw ∧
    decodeWord 0b00000100 = .ok .xword ∧ decodeWord 0b00000101 = .ok .skey ∧ decodeWord 0b00000110 = .ok .skeysalt ∧
    decodeWord 0b00000111 = .ok .bhash ∧ decodeWord 0b00001000 = .ok .derive ∧ decodeWord 0b00001001 = .ok .zero ∧
    decodeWord 0b00001010 = .ok .sha512

/-- A step with an operation presented takes it off the lines and is its meaning (R61). That the step does this before it looks at
the host's next line, whatever that is, is the model's choice (log 2), and so is the atomic, `BUSY`-gated meaning of a presented
`DERIVE` (log 3, which R7 allows). -/
def Obligations.StepRunsThePresentedOperation : Prop :=
  ∀ (s : State) (w : BitVec 8) (i : Instr), s.opSel = some w → decodeWord w = .ok i → i.wf →
    step s = exec i { s with opSel := none }

/-- A reserved code on the unit interface is refused (the model's choice, log 13: R63 says that one cannot occur there). -/
def Obligations.ReservedCodePresentedIsRefused : Prop :=
  ∀ (s : State) (w : BitVec 8), s.opSel = some w → commandWordWf w = false →
    step s = .refused (.reservedOperation w)

/-! ### Unit core (40_cipher_core.md) -/

/-- R70: `INIT` loads all of `P` and `S` with the constants and changes nothing else. -/
def Obligations.InitLoadsTheConstants : Prop :=
  ∀ s : State, exec .init s = .next { s with cipher := ⟨pInit, sInit⟩ } ∧
    pInit[0] = 0x243F6A88 ∧ pInit[17] = 0x8979FB1B ∧ sInit[0][0] = 0xD1310BA6 ∧ sInit[3][255] = 0x3AC372E6

/-- R72, R74: `ENCB` completes with the textbook cipher of its operands and changes nothing but its results. R71: the round function
in it adds the words of `S[0]` and `S[1]`, XORs that of `S[2]` and adds that of `S[3]`, the bytes taken from the most significant
one down. -/
def Obligations.EncbReturnsTheTextbookCipher : Prop :=
  (∀ s : State, exec .encb s = .next { s with res := { s.res with
    left := (encryptBlockTextbook s.cipher ⟨s.ops.left, s.ops.right⟩).L
    right := (encryptBlockTextbook s.cipher ⟨s.ops.left, s.ops.right⟩).R } }) ∧
  ∀ (c : CipherState) (x : Word), roundFunction c x =
    ((c.S[0][(x.extractLsb' 24 8).toFin] + c.S[1][(x.extractLsb' 16 8).toFin]) ^^^ c.S[2][(x.extractLsb' 8 8).toFin]) +
      c.S[3][(x.extractLsb' 0 8).toFin]

/-- R74: the loop form of rule R72 and the textbook form are the same function. -/
def Obligations.LoopFormIsTheTextbookForm : Prop :=
  ∀ (c : CipherState) (x : Block), encryptBlock c x = encryptBlockTextbook c x

/-- R72: for any tables, `ENCB` is a bijection on blocks. -/
def Obligations.EncbIsABijection : Prop := ∀ c : CipherState, Function.Bijective (encryptBlock c)

/-- R72, R127: on erased tables `ENCB(L, R) = (R, L)`. -/
def Obligations.EncbOnErasedTablesSwaps : Prop :=
  ∀ s : State, s.cipher = CipherState.zeroes →
    exec .encb s = .next { s with res := { s.res with left := s.ops.right, right := s.ops.left } }

/-- R73: `ENCW` on an even number of words completes; each pair is encrypted by itself; nothing but the result words changes. -/
def Obligations.EncwEncryptsEachPair : Prop :=
  ∀ s : State, s.ops.words.length % 2 = 0 →
    ∃ ws : List Word, exec .encw s = .next { s with res := { s.res with words := ws } } ∧
      ws.length = s.ops.words.length ∧
      ∀ k, 2 * k + 1 < ws.length →
        (⟨ws.getD (2 * k) 0, ws.getD (2 * k + 1) 0⟩ : Block) =
          encryptBlock s.cipher ⟨s.ops.words.getD (2 * k) 0, s.ops.words.getD (2 * k + 1) 0⟩

/-- R73, R105, R107: `ENCW` on an odd number of words raises InternalInvariantViolation. R107 speaks of an error in a command; that
the error is taken in the same way (erasure, `STATUS = 0xA`) where no command runs is the model's deduction (log 9). -/
def Obligations.EncwOddCountRaisesViolation : Prop :=
  ∀ s : State, s.ops.words.length % 2 = 1 → ∃ t, exec .encw s = .next t ∧ ViolationTaken s t

/-! ### Unit ksched (41_key_schedule.md) -/

/-- R76: `XWORD` on a source that is not empty completes with the four bytes from the wrapped cursor on, read circularly, the first
in bits 31:24, and with a cursor in `1 .. len`; nothing but the results changes. A cursor at the end acts as a cursor at 0. -/
def Obligations.XwordReadsCircularly : Prop :=
  ∀ (s : State) (B : List Byte), sourceBytes s s.ops.key = B → B ≠ [] →
    (∃ p q, (p = if s.ops.cur < B.length then s.ops.cur else 0) ∧ q = (p + 3) % B.length + 1 ∧ 1 ≤ q ∧ q ≤ B.length ∧
      exec .xword s = .next { s with res := { s.res with word := circularWord B p, cur := q } }) ∧
    extractWord B B.length = extractWord B 0

/-- R76: with length and cursor multiples of 4, the only case inside the block, `XWORD` reads `be_word(B, cur mod len)`. -/
def Obligations.XwordAlignedReadsBigEndianWord : Prop :=
  ∀ (s : State) (B : List Byte), sourceBytes s s.ops.key = B → B ≠ [] → B.length % 4 = 0 → s.ops.cur % 4 = 0 →
    s.ops.cur ≤ B.length →
    exec .xword s = .next { s with res := { s.res with
      word := beWord B (s.ops.cur % B.length), cur := s.ops.cur % B.length + 4 } }

/-- R76, R105, R107, R115: an empty source makes `XWORD`, `SKEY` and `SKEYSALT` raise InternalInvariantViolation. R107 speaks of an
error in a command; that the error is taken in the same way where no command runs is the model's deduction (log 9). -/
def Obligations.EmptySourceRaisesViolation : Prop :=
  ∀ s : State,
    (sourceBytes s s.ops.key = [] → ∃ t, exec .xword s = .next t ∧ ViolationTaken s t) ∧
    (sourceBytes s s.ops.key = [] → ∃ t, exec .skey s = .next t ∧ ViolationTaken s t) ∧
    (sourceBytes s s.ops.key = [] ∨ sourceBytes s s.ops.salt = [] →
      ∃ t, exec .skeysalt s = .next t ∧ ViolationTaken s t)

/-- R77: P mixing XORs word `i` of the circular key into `P[i]`, leaves `S` alone and ends with the cursor after 72 bytes. -/
def Obligations.KeyMixingXorsCircularKeyWords : Prop :=
  ∀ (K : List Byte) (c : CipherState), K ≠ [] →
    (∀ i : Fin 18, (mixKey K c).1.P[i] = c.P[i] ^^^ circularWord K (4 * i.val)) ∧
      (mixKey K c).1.S = c.S ∧ (mixKey K c).2 = 71 % K.length + 1

/-- R77: `SKEY` with a key that is not empty completes; only `P`, `S`, `RB` and `KCUR` change, `RB` ends as the last pair of `S`, and
`KCUR` as 72 circular bytes leave it. -/
def Obligations.SkeyRewritesTheTables : Prop :=
  ∀ (s : State) (K : List Byte), sourceBytes s s.ops.key = K → K ≠ [] →
    ∃ c : CipherState, c = (rederive id (mixKey K s.cipher).1 0).cipher ∧
      exec .skey s = .next { s with
        cipher := c, rb := ⟨c.S[3][254], c.S[3][255]⟩, kcur := 71 % K.length + 1 }

/-- R78: `SKEYSALT` with key and salt that are not empty completes; only `P`, `S`, `RB`, `KCUR` and `SCUR` change; the salt cursor ends
after 4168 circular bytes. -/
def Obligations.SkeysaltRewritesTheTables : Prop :=
  ∀ (s : State) (K Sa : List Byte), sourceBytes s s.ops.key = K → sourceBytes s s.ops.salt = Sa → K ≠ [] → Sa ≠ [] →
    ∃ c : CipherState, c = (rederive (injectSalt Sa) (mixKey K s.cipher).1 0).cipher ∧
      exec .skeysalt s = .next { s with
        cipher := c, rb := ⟨c.S[3][254], c.S[3][255]⟩, kcur := 71 % K.length + 1, scur := 4167 % Sa.length + 1 }

/-- R77, R78, R79: the 521 pairs in order, those of `P`, then those of the four tables. Before pair `j` the places of the earlier
pairs hold their final words and the places of the later pairs, `j` among them, still hold the old words; the running block is zero
before the first pair and the result of the pair before after that; pair `j` ends as the encryption of the running block under
exactly those tables. `SKEY` injects nothing; `SKEYSALT` XORs the next two words of one continuous circular reading of the salt,
which starts at cursor 0, into the running block first. -/
def Obligations.ScheduleEncryptsUnderPartialTables : Prop :=
  ∀ (inject : Sched → Sched), (inject = id ∨ ∃ Sa, inject = injectSalt Sa) → ∀ (c : CipherState) (cur : Nat) (j : Fin 521),
    let final := (rederive inject c cur).cipher
    let before := scheduleCourse inject c cur j.val
    scheduleSlots.length = 521 ∧
    (∀ i : Fin 9, scheduleSlots[i.val]? = some (.p i)) ∧
    (∀ (t : Fin 4) (q : Fin 128), scheduleSlots[9 + 128 * t.val + q.val]? = some (.s t q)) ∧
    (∀ i : Nat, ∀ slot, scheduleSlots[i]? = some slot → i < j.val →
      readSlot before.cipher slot = readSlot final slot) ∧
    (∀ i : Nat, ∀ slot, scheduleSlots[i]? = some slot → j.val ≤ i →
      readSlot before.cipher slot = readSlot c slot) ∧
    (j.val = 0 → before.rb = ⟨0, 0⟩) ∧
    (∀ i : Nat, ∀ slot, scheduleSlots[i]? = some slot → j.val = i + 1 → before.rb = readSlot final slot) ∧
    (inject = id → (inject before).rb = before.rb) ∧
    (∀ Sa : List Byte, Sa ≠ [] → inject = injectSalt Sa → cur = 0 → (inject before).rb =
      ⟨before.rb.L ^^^ circularWord Sa (8 * j.val), before.rb.R ^^^ circularWord Sa (8 * j.val + 4)⟩) ∧
    (∀ slot, scheduleSlots[j.val]? = some slot →
      readSlot final slot = encryptBlock before.cipher (inject before).rb)

/-- R77: two keys with the same circular expansion to 72 bytes leave `SKEY` with the same `P`, `S` and `RB`. -/
def Obligations.SkeyDependsOnTheKeyExpansionOnly : Prop :=
  ∀ (s : State) (K K' : List Byte), K ≠ [] → K' ≠ [] → (∀ j, j < 72 → circularByte K j = circularByte K' j) →
    ∃ t t', exec .skey { s with ops := { s.ops with key := .given K } } = .next t ∧
      exec .skey { s with ops := { s.ops with key := .given K' } } = .next t' ∧
      t.cipher = t'.cipher ∧ t.rb = t'.rb

/-- R78: with a salt of one or more zero bytes, given or passed by reference to `SD` or `PH`, `SKEYSALT` leaves the `P`, `S`, `RB` and `KCUR` that `SKEY` leaves. -/
def Obligations.SkeysaltWithZeroSaltIsSkey : Prop :=
  ∀ (s : State) (n : Nat), sourceBytes s s.ops.key ≠ [] → sourceBytes s s.ops.salt = List.replicate (n + 1) 0 →
    ∃ t u, exec .skeysalt s = .next t ∧ exec .skey s = .next u ∧
      t.cipher = u.cipher ∧ t.rb = u.rb ∧ t.kcur = u.kcur

/-! ### Unit bhash (42_hash_engine.md) -/

/-- R43: step 4 loads the eight big-endian words of `MAGIC`, and nothing else changes. -/
def Obligations.MagicIsLoadedBigEndian : Prop :=
  ∀ s : State, (∀ j : Fin 8, (hashLoad s).cdata[j] = beWord magic (4 * j.val)) ∧
    hashLoad s = { s with cdata := #v[0x4F787963, 0x68726F6D, 0x61746963, 0x426C6F77, 0x66697368, 0x53776174, 0x44796E61,
      0x6D697465] }

/-- R44: step 6 writes word `j` of `CDATA` to `TMP[4j .. 4j+3]`, least significant byte first, words in index order. -/
def Obligations.HashIsEncodedLittleEndian : Prop :=
  ∀ (s : State) (j : Fin 8),
    (hashEncode s).tmp[4 * j.val] = s.cdata[j].extractLsb' 0 8 ∧
    (hashEncode s).tmp[4 * j.val + 1] = s.cdata[j].extractLsb' 8 8 ∧
    (hashEncode s).tmp[4 * j.val + 2] = s.cdata[j].extractLsb' 16 8 ∧
    (hashEncode s).tmp[4 * j.val + 3] = s.cdata[j].extractLsb' 24 8

/-- R82, R85, R151: `BHASH` completes with `TMP` the closed form of its two operands; the storage it uses is left as R82 says, as a
function of the operands alone, and nothing else changes. -/
def Obligations.BhashIsAFunctionOfItsOperands : Prop :=
  ∀ s : State, exec .bhash s = .next { s with
    cipher := expandedCipher s.ph s.sd
    rb := ⟨(expandedCipher s.ph s.sd).S[3][254], (expandedCipher s.ph s.sd).S[3][255]⟩
    kcur := 8
    scur := 8
    cdata := encryptedMagic s.ph s.sd
    tmp := bcryptHash s.ph s.sd }

/-- R30, R61, R82: 196 moves of the sequencer from the first step of a hash are `BHASH`. The number of moves is the model's choice
(log 5: one move is one call or one assignment step; R30 leaves the granularity open). -/
def Obligations.HashStagesAreBhash : Prop :=
  ∀ (s : State) (again : Bool), s.stage = .hash again .init →
    ∃ t, exec .bhash s = .next t ∧ iter advance 196 s = { t with stage := .accumulate again }

/-- R30, R61, R82, R87, R96: at every stage where the sequencer calls `INIT`, `SKEYSALT`, `SKEY`, `ENCW`, `SHA512` or `ZERO`, with the
operands of that call on the unit interface, the operation completes and the sequencer's move is its next state, the results
stored where the caller stores them and the sequencer one stage on. A call of `SHA512` is the request with its message and the
answer. That one call is one move is the model's choice (log 5), and so is that the digest port answers on the move after the
request (log 6). -/
def Obligations.SequencerMovesRunTheTableOperations : Prop :=
  ∀ (s : State) (again : Bool) (n : Nat),
    (s.stage = .hash again .init →
      ∃ t, exec .init s = .next t ∧ advance s = { t with stage := .hash again .salted }) ∧
    (s.stage = .hash again .salted → s.ops.key = .ph → s.ops.salt = .sd →
      ∃ t, exec .skeysalt s = .next t ∧ advance s = { t with stage := .hash again (.expandSalt 0) }) ∧
    (s.stage = .hash again (.expandSalt n) → s.ops.key = .sd →
      ∃ t, exec .skey s = .next t ∧ advance s = { t with stage := .hash again (.expandKey n) }) ∧
    (s.stage = .hash again (.expandKey n) → s.ops.key = .ph →
      ∃ t, exec .skey s = .next t ∧
        advance s = { t with stage := .hash again (if n + 1 < 64 then .expandSalt (n + 1) else .load) }) ∧
    (s.stage = .hash again (.encrypt n) → s.ops.words = s.cdata.toList →
      ∃ ws : Vector Word 8, exec .encw s = .next { s with res := { s.res with words := ws.toList } } ∧
        advance s = { s with
          cdata := ws, stage := .hash again (if n + 1 < 64 then .encrypt (n + 1) else .encode) }) ∧
    (s.stage = .preHash →
      advance s = { s with digestReq := some (passwordBytes s), stage := .preHashAnswer }) ∧
    (s.stage = .preHashAnswer → s.digestReq = some s.ops.msg →
      ∃ t, exec .sha512 s = .next t ∧ advance s = { s with ph := t.res.digest, digestReq := none, stage := .blockCount }) ∧
    (s.stage = .saltDigest → advance s = { s with
      digestReq := some (saltBytes s ++ be32 (BitVec.ofNat 32 (s.blkidx + 1))), stage := .saltDigestAnswer }) ∧
    (s.stage = .saltDigestAnswer → s.digestReq = some s.ops.msg →
      ∃ t, exec .sha512 s = .next t ∧
        advance s = { s with sd := t.res.digest, digestReq := none, stage := .hash false .init }) ∧
    (s.stage = .reDigest → advance s = { s with digestReq := some s.tmp.toList, stage := .reDigestAnswer }) ∧
    (s.stage = .reDigestAnswer → s.digestReq = some s.ops.msg →
      ∃ t, exec .sha512 s = .next t ∧
        advance s = { s with sd := t.res.digest, digestReq := none, stage := .hash true .init }) ∧
    (s.stage = .erase → ∃ t, exec .zero s = .next t ∧ advance s = { t with stage := .report })

/-! ### Unit pbkdf (43_pbkdf_driver.md) -/

/-- R87, R95, R97, R151: `DERIVE` with valid operands, accepted while idle, completes: `OUT[0..OUTLEN-1]` is the closed form, every
other byte of `OUT`, the host's operands and the interface are as before, the internal storage is zero and `STATUS = 0x2`. -/
def Obligations.DeriveWritesTheClosedForm : Prop :=
  ∀ s : State, s.busy = false → OperandsValid s → s.out.wf →
    ∃ t, exec .derive s = .next t ∧
      (∀ d, d < s.outlen.toNat →
        t.out.read d = derivedByte (passwordBytes s) (saltBytes s) s.rounds.toNat s.outlen.toNat d) ∧
      (∀ d, s.outlen.toNat ≤ d → t.out.read d = s.out.read d) ∧
      t.status = 0x2 ∧ t.stage = .idle ∧ t.digestReq = s.digestReq ∧ t.freeCtr = s.freeCtr ∧
      InternalZero t ∧ SameHostOperands s t ∧ SameInterface s t

/-- R88, R104, R106: `DERIVE` with an operand that is zero or past its capacity raises InvalidArgument: internal storage zero,
`STATUS = 0x6`, no command runs, and everything else, `OUT` among it, is as before. -/
def Obligations.DeriveRefusesInvalidOperands : Prop :=
  ∀ s : State, s.busy = false → ¬ OperandsValid s →
    ∃ t, exec .derive s = .next t ∧ InternalZero t ∧
      t = { eraseInternal s with status := 0x6, stage := .idle, digestReq := none }

/-- R52: a `DERIVE` issued while a command runs is ignored. R52 says so of a host write to `CMD`; that the atomic `DERIVE` of the unit
interface is gated in the same way is the model's deduction (log 3). -/
def Obligations.DeriveWhileBusyIsIgnored : Prop := ∀ s : State, s.busy = true → exec .derive s = .next s

/-- R31, R100: the output of `DERIVE` is a function of the password bytes, the salt bytes, `ROUNDS` and `OUTLEN` alone. -/
def Obligations.DeriveDependsOnItsOperandsOnly : Prop :=
  ∀ s s' : State, s.busy = false → s'.busy = false → OperandsValid s → OperandsValid s' → s.out.wf → s'.out.wf →
    passwordBytes s = passwordBytes s' → saltBytes s = saltBytes s' → s.rounds = s'.rounds → s.outlen = s'.outlen →
    ∃ t t', exec .derive s = .next t ∧ exec .derive s' = .next t' ∧ t.status = t'.status ∧
      ∀ d, d < s.outlen.toNat → t.out.read d = t'.out.read d

/-- R101: two commands that differ in `OUTLEN` alone but have the same block count give outputs that agree as far as the shorter
one goes. -/
def Obligations.SameBlockCountSharesOutput : Prop :=
  ∀ s s' : State, s.busy = false → s'.busy = false → OperandsValid s → OperandsValid s' → s.out.wf → s'.out.wf →
    passwordBytes s = passwordBytes s' → saltBytes s = saltBytes s' → s.rounds = s'.rounds →
    (s.outlen.toNat + 31) / 32 = (s'.outlen.toNat + 31) / 32 →
    ∃ t t', exec .derive s = .next t ∧ exec .derive s' = .next t' ∧
      ∀ d, d < s.outlen.toNat → d < s'.outlen.toNat → t.out.read d = t'.out.read d

/-- R98: the blocks may be taken in any order; `OUT` is the same. -/
def Obligations.BlockOrderDoesNotMatter : Prop :=
  ∀ (s : State) (l : List Nat), s.out.wf → s.blkcnt = (s.outlen.toNat + 31) / 32 → l.Perm (List.range s.blkcnt) →
    ∀ d, (deriveInOrder l s).out.read d = (deriveBlocks s.blkcnt 0 s).out.read d

/-- R90: the block count is `ceil(OUTLEN / 32)`, in the range that R29 and R68 give it. That `BLKIDX` becomes 0 in the same move is the
model's placing of the start of R87's step 3 (log 5). -/
def Obligations.BlockCountIsTheCeiling : Prop :=
  ∀ s : State, 1 ≤ s.outlen.toNat →
    countBlocks s = { s with blkcnt := (s.outlen.toNat + 31) / 32, blkidx := 0 } ∧
    1 ≤ (countBlocks s).blkcnt ∧ (countBlocks s).blkcnt ≤ 2 ^ 27 ∧
    (s.outlen.toNat % 32 = 0 → (countBlocks s).blkcnt = s.outlen.toNat / 32) ∧
    (s.outlen.toNat % 32 ≠ 0 → (countBlocks s).blkcnt = s.outlen.toNat / 32 + 1)

/-- R94: the scatter puts `ACC[i]` at `i * BLKCNT + BLKIDX` below `OUTLEN` and changes nothing else. -/
def Obligations.ScatterPlacesEachByte : Prop :=
  ∀ s : State, s.out.wf → s.blkidx < s.blkcnt →
    scatterAcc s = { s with out := (scatterAcc s).out } ∧
    (∀ i : Fin 32, i.val * s.blkcnt + s.blkidx < s.outlen.toNat →
      (scatterAcc s).out.read (i.val * s.blkcnt + s.blkidx) = s.acc[i]) ∧
    (∀ d, (∀ i : Fin 32, d = i.val * s.blkcnt + s.blkidx → s.outlen.toNat ≤ d) →
      (scatterAcc s).out.read d = s.out.read d)

/-- R93: a round of the stretching loop hashes the 32 bytes of `TMP` alone and XORs the new hash into `ACC`; `OUT` and the host's
operands stay. -/
def Obligations.StretchRoundChainsThePreviousHash : Prop :=
  ∀ s : State,
    (stretchRound s).tmp = bcryptHash s.ph (Config.sha512 s.tmp.toList) ∧
    (∀ i : Fin 32, (stretchRound s).acc[i] = s.acc[i] ^^^ (stretchRound s).tmp[i]) ∧
    (stretchRound s).ph = s.ph ∧ (stretchRound s).out = s.out ∧ SameHostOperands s (stretchRound s)

/-- R97: `ZERO` completes with all internal storage zero; nothing of the host's and nothing of the interface changes; on erased
storage it changes nothing. -/
def Obligations.ZeroErasesTheInternalStorage : Prop :=
  ∀ s : State, ∃ t, exec .zero s = .next t ∧ InternalZero t ∧ SameHostOperands s t ∧ SameInterface s t ∧
    t.out = s.out ∧ t.status = s.status ∧ t.stage = s.stage ∧ t.digestReq = s.digestReq ∧ t.freeCtr = s.freeCtr ∧
    (InternalZero s → t = s)

/-- R96: `SHA512` completes with the digest of its message as its result, and nothing else changes. -/
def Obligations.Sha512ReturnsTheDigest : Prop :=
  ∀ s : State, exec .sha512 s = .next { s with res := { s.res with digest := Config.sha512 s.ops.msg } }

/-- R106, R107: taking an error leaves everything internal zero, the status of its kind and no command; InvalidArgument leaves `OUT`
alone, InternalInvariantViolation leaves it alone from `OUTLEN` on. -/
def Obligations.RaiseTakesTheError : Prop :=
  ∀ s : State, ViolationTaken s (raise .internalInvariantViolation s) ∧
    raise .invalidArgument s = { eraseInternal s with status := 0x6, stage := .idle, digestReq := none }

/-! ### The host port (10_state.md, 20_memory.md, 60_exceptions.md) -/

/-- R26: `CMD` is a trigger: a write while idle issues the command, a write while busy is ignored, a read gives 0. -/
def Obligations.CmdIsATrigger : Prop :=
  ∀ (s : State) (c : BitVec 8),
    (s.busy = false → hostAction (.cmd c) s = .next { s with status := 0x1, stage := .accepted c }) ∧
    (s.busy = true → hostAction (.cmd c) s = .next s) ∧
    hostRegister s .cmd = 0

/-- R52: while `BUSY = 1` every host write is ignored, a read of `STATUS` gives its value, every other read gives 0. -/
def Obligations.HostAccessWhileBusy : Prop :=
  ∀ (s : State) (rest : List HostAction), s.opSel = none → s.busy = true →
    (∀ r v, step { s with script := .wr r v :: rest } = .next { s with script := rest }) ∧
    (∀ b i bytes, step { s with script := .wrb b i bytes :: rest } = .next { s with script := rest }) ∧
    (∀ c, step { s with script := .cmd c :: rest } = .next { s with script := rest }) ∧
    (step { s with script := .rd .status :: rest } = .next { s with script := rest, rdWord := s.status }) ∧
    (∀ r, r ≠ .status → step { s with script := .rd r :: rest } = .next { s with script := rest, rdWord := 0 }) ∧
    (∀ b i n, step { s with script := .rdb b i n :: rest } =
      .next { s with script := rest, rdBytes := List.replicate n 0 })

/-- R24, R27: while idle the four operand registers store and return every value, and `STATUS` ignores writes. -/
def Obligations.HostRegistersArePlainStorage : Prop :=
  ∀ (s : State) (v : Word), s.busy = false →
    hostWriteRegister .rounds v s = { s with rounds := v } ∧ hostWriteRegister .outlen v s = { s with outlen := v } ∧
    hostWriteRegister .pwlen v s = { s with pwlen := v } ∧ hostWriteRegister .saltlen v s = { s with saltlen := v } ∧
    hostWriteRegister .status v s = s ∧
    ∀ r, r = .rounds ∨ r = .outlen ∨ r = .pwlen ∨ r = .saltlen → hostRegister (hostWriteRegister r v s) r = v

/-- R28, R49: while idle, bytes written inside the capacity of a buffer are read back; every other index of it, and every other
piece of state, is as before. -/
def Obligations.HostBufferReadsBackWhatWasWritten : Prop :=
  ∀ (s : State) (b : HostBuf) (i : Nat) (bytes : List Byte), s.busy = false → (bufferOf s b).wf →
    i + bytes.length ≤ bufferCapacity b →
    ∃ m, hostAction (.wrb b i bytes) s = .next (withBuffer s b m) ∧
      hostAction (.rdb b i bytes.length) (withBuffer s b m) = .next { withBuffer s b m with rdBytes := bytes } ∧
      ∀ j, j < i ∨ i + bytes.length ≤ j → m.read j = (bufferOf s b).read j

/-- A host access past the capacity of a buffer stops the model (the model's choice, log 11: R13 and R45 define no such access). -/
def Obligations.HostAccessPastCapacityFaults : Prop :=
  ∀ (s : State) (b : HostBuf) (i : Nat), s.busy = false →
    (∀ bytes : List Byte, bufferCapacity b < i + bytes.length →
      hostAction (.wrb b i bytes) s = .fault (.hostIndexOutOfRange b i)) ∧
    (∀ n, bufferCapacity b < i + n → hostAction (.rdb b i n) s = .fault (.hostIndexOutOfRange b i))

/-- R63, R88, R106: from an idle block, a command word other than 0x08, or 0x08 with invalid operands, ends two steps later in the
state before it but for `STATUS = 0x6`. The number of steps, one for the acceptance and one for the check, is the model's choice
(log 5; no time, log 18). -/
def Obligations.ErrorCompletionChangesStatusOnly : Prop :=
  ∀ (s : State) (c : BitVec 8), HostDriven s → s.stage = .idle → s.script = [] → c ≠ 0x08 ∨ ¬ OperandsValid s →
    run 2 { s with script := [.cmd c] } = .next { s with status := 0x6 }

/-- R36, R126: the state after reset. -/
def Obligations.ResetZeroesEverything : Prop :=
  let s := State.reset
  InternalZero s ∧ s.status = 0 ∧ s.rounds = 0 ∧ s.outlen = 0 ∧ s.pwlen = 0 ∧ s.saltlen = 0 ∧ s.stage = .idle ∧
    s.digestReq = none ∧ (∀ i, s.pwd.read i = 0) ∧ (∀ i, s.salt.read i = 0) ∧ (∀ i, s.out.read i = 0) ∧
    (∀ r, hostRegister s r = 0)

/-- R109, R126: hardware reset at any moment, in the middle of a command too, gives the state after reset. The model's own fields are
its choice: `ops` and `res` go back to their values after reset (log 1), `rdWord` and `rdBytes` too (log 12), the rest of the script
is the host's and stays (log 4), and so does the count of free values (log 8). With an operation presented, that operation comes
first and the reset in the step after it (log 2). -/
def Obligations.HardwareResetAtAnyMoment : Prop :=
  ∀ (s : State) (rest : List HostAction), s.opSel = none → s.script = .reset :: rest →
    step s = .next { State.reset with script := rest, freeCtr := s.freeCtr }

/-- R35(b), R57, R128: no move of the sequencer writes the host's operands, `OUT` from index `OUTLEN` on, or the interface. -/
def Obligations.SequencerLeavesTheHostsStateAlone : Prop :=
  ∀ s : State, SameHostOperands s (advance s) ∧ SameInterface s (advance s) ∧
    ∀ d, s.outlen.toNat ≤ d → (advance s).out.read d = s.out.read d

/-! ### Invariants, refinement, completion -/

/-- The block after reset, whatever the host is going to do, meets the invariants of a host-driven block. -/
def Obligations.HostDrivenAtReset : Prop := ∀ script : List HostAction, HostDriven { State.reset with script := script }

/-- R27, R29, R35: every step keeps the invariants of a host-driven block. -/
def Obligations.EveryStepKeepsHostDriven : Prop := ∀ s t : State, HostDriven s → step s = .next t → HostDriven t

/-- The buffers after reset are in canonical form. -/
def Obligations.MemoryCanonicalAtReset : Prop := MemoryCanonical State.reset

/-- Every step, of a presented operation too, keeps the buffers in canonical form. -/
def Obligations.EveryStepKeepsMemoryCanonical : Prop :=
  ∀ s t : State, MemoryCanonical s → step s = .next t → MemoryCanonical t

/-- R27, R105: in every run of a host-driven block `STATUS` is `0x0`, `0x1`, `0x2` or `0x6`: `BUSY` and `DONE` are never both 1, bits
31:4 are 0, and `0xA` is never reached. -/
def Obligations.StatusStaysLegal : Prop :=
  ∀ (k : Nat) (s t : State), HostDriven s → run k s = .next t →
    (t.status = 0x0 ∨ t.status = 0x1 ∨ t.status = 0x2 ∨ t.status = 0x6) ∧ t.status ≠ 0xA ∧
      ¬ (t.busy = true ∧ t.done = true) ∧ t.status.extractLsb' 4 28 = 0

/-- R7: the command `DERIVE`, issued by the host and refined into the moves of the sequencer, ends in the state of the atomic
`DERIVE`, for valid and for invalid operands alike. That `exec` has the atomic reading and the host port the refined one is the
model's deduction from R7 (log 3). -/
def Obligations.RefinedDeriveIsAtomicDerive : Prop :=
  ∀ s : State, HostDriven s → s.stage = .idle → s.script = [] →
    ∃ (k : Nat) (t : State), exec .derive s = .next t ∧
      run k { s with script := [.cmd 0x08] } = .next t

/-- R95, R132: from any point of a running command, with the host silent, the block reaches `DONE` after finitely many steps. R132
has the proviso that the digest primitive answers; the model's port answers on the move after the request (log 6), so that a
primitive that never answers is outside this statement. -/
def Obligations.EveryCommandCompletes : Prop :=
  ∀ s : State, HostDriven s → s.stage ≠ .idle → s.script = [] →
    ∃ (k : Nat) (t : State), run k s = .next t ∧ t.stage = .idle ∧ t.done = true ∧ InternalZero t

/-- R53(b), R67: a host that waits is let go by the first step that finds `DONE = 1`, with `STATUS` in hand; until then the wait
stands and the block moves. That each step of a standing wait reads `STATUS` and makes exactly one move of the block is the model's
choice (log 4), and so is that what is read stands in `rdWord` (log 12). -/
def Obligations.WaitEndsAtDone : Prop :=
  ∀ (s : State) (rest : List HostAction), s.opSel = none → s.script = .wait :: rest →
    (s.done = true → step s = .next { s with script := rest, rdWord := s.status }) ∧
    (s.done = false → step s = .next (advance { s with rdWord := s.status }))
end

