-- ==== Sys2Proof/Laws/Memory.lean ====
section
/-! SUPPORT. Laws of the host buffers: read after write, and every memory operation keeps the canonical form and the capacity. -/

namespace Sys2Proof.Machine

@[simp] theorem Memory.read_nil (i : Nat) : Memory.read [] i = Memory.unlisted := rfl

theorem Memory.wf_nil : Memory.wf [] := ⟨List.Pairwise.nil, by simp⟩

theorem Memory.wf_cons {c : Host.Cell} {m : Memory} :
    Memory.wf (c :: m) ↔ (∀ d ∈ m, c.1 < d.1) ∧ c.2 ≠ Memory.unlisted ∧ Memory.wf m := by
  simp only [Memory.wf, List.pairwise_cons, List.forall_mem_cons]
  tauto

/-- An index that is not listed reads as `unlisted`. -/
theorem Memory.read_of_not_listed {m : Memory} {i : Nat} (h : ∀ c ∈ m, c.1 ≠ i) : m.read i = Memory.unlisted := by
  induction m with
  | nil => rfl
  | cons c m ih =>
    obtain ⟨a, b⟩ := c
    have ha : a ≠ i := h (a, b) (by simp)
    rw [Memory.read, if_neg ha, ih fun d hd => h d (by simp [hd])]

/-- Every entry of the written memory is the new one or an old one. -/
theorem Memory.mem_write {m : Memory} {i : Nat} {v : Byte} {c : Host.Cell} (h : c ∈ m.write i v) :
    (c = (i, v) ∧ v ≠ Memory.unlisted) ∨ c ∈ m := by
  induction m with
  | nil => simp only [Memory.write] at h; split at h <;> simp_all
  | cons d m ih =>
    obtain ⟨a, b⟩ := d
    simp only [Memory.write] at h
    split at h
    · split at h <;> simp_all
    · split at h
      · split at h
        · exact .inr (by simp [h])
        · simp only [List.mem_cons] at h ⊢; tauto
      · simp only [List.mem_cons] at h ⊢
        rcases h with h | h
        · exact .inr (.inl h)
        · rcases ih h with h | h <;> tauto

/-- A write keeps the canonical form. -/
theorem Memory.write_wf {m : Memory} (h : m.wf) (i : Nat) (v : Byte) : (m.write i v).wf := by
  induction m with
  | nil =>
    simp only [Memory.write]; split
    · exact Memory.wf_nil
    · exact Memory.wf_cons.2 ⟨by simp, ‹_›, Memory.wf_nil⟩
  | cons c m ih =>
    obtain ⟨a, b⟩ := c
    obtain ⟨hlt, hb, hm⟩ := Memory.wf_cons.1 h
    simp only [Memory.write]
    split
    · split
      · exact h
      · refine Memory.wf_cons.2 ⟨?_, ‹_›, h⟩
        intro d hd
        rcases List.mem_cons.1 hd with rfl | hd
        · simpa using ‹i < a›
        · exact lt_trans ‹i < a› (hlt d hd)
    · split
      · split
        · exact hm
        · subst_vars; exact Memory.wf_cons.2 ⟨hlt, ‹_›, hm⟩
      · refine Memory.wf_cons.2 ⟨?_, hb, ih hm⟩
        intro d hd
        rcases Memory.mem_write hd with ⟨rfl, -⟩ | hd
        · simp only; omega
        · exact hlt d hd

/-- A read after a write to the same index gives the value written. -/
theorem Memory.read_write_same {m : Memory} (h : m.wf) (i : Nat) (v : Byte) : (m.write i v).read i = v := by
  induction m with
  | nil => simp only [Memory.write]; split <;> simp_all [Memory.read]
  | cons c m ih =>
    obtain ⟨a, b⟩ := c
    obtain ⟨hlt, hb, hm⟩ := Memory.wf_cons.1 h
    simp only [Memory.write]
    split
    · split
      · subst_vars
        apply Memory.read_of_not_listed
        intro d hd
        rcases List.mem_cons.1 hd with rfl | hd
        · simp only; omega
        · have := hlt d hd; simp only at this; omega
      · simp [Memory.read]
    · split
      · split
        · subst_vars
          apply Memory.read_of_not_listed
          intro d hd
          have := hlt d hd; simp only at this; omega
        · simp [Memory.read]
      · rw [Memory.read, if_neg (by omega), ih hm]

/-- A write leaves every other index alone. -/
theorem Memory.read_write_other {m : Memory} {i j : Nat} (v : Byte) (h : j ≠ i) : (m.write i v).read j = m.read j := by
  induction m with
  | nil => simp only [Memory.write]; split <;> simp [Memory.read, h.symm]
  | cons c m ih =>
    obtain ⟨a, b⟩ := c
    simp only [Memory.write]
    split
    · split <;> simp [Memory.read, h.symm]
    · split
      · subst_vars; split <;> simp [Memory.read, h.symm]
      · simp [Memory.read, ih]

/-- A read after a write, at any index. -/
theorem Memory.read_write {m : Memory} (h : m.wf) (i j : Nat) (v : Byte) :
    (m.write i v).read j = if j = i then v else m.read j := by
  split
  · subst_vars; exact Memory.read_write_same h _ _
  · exact Memory.read_write_other v ‹_›

theorem Memory.write_within {m : Memory} {cap i : Nat} (h : m.within cap) (hi : i < cap) (v : Byte) :
    (m.write i v).within cap := by
  intro c hc
  rcases Memory.mem_write hc with ⟨rfl, -⟩ | hc
  · exact hi
  · exact h c hc

theorem Memory.writeBytes_wf {m : Memory} (h : m.wf) (i : Nat) (vs : List Byte) : (m.writeBytes i vs).wf := by
  induction vs generalizing m i with
  | nil => exact h
  | cons v vs ih => exact ih (Memory.write_wf h i v) (i + 1)

theorem Memory.writeBytes_within {m : Memory} {cap i : Nat} (h : m.within cap) (vs : List Byte)
    (hi : i + vs.length ≤ cap) : (m.writeBytes i vs).within cap := by
  induction vs generalizing m i with
  | nil => exact h
  | cons v vs ih =>
    simp only [List.length_cons] at hi
    exact ih (Memory.write_within h (by omega) v) (by omega)

/-- The byte at `j` after `MemWrite` at `i`: the written byte inside the range, the old one outside. -/
theorem Memory.read_writeBytes {m : Memory} (h : m.wf) (i j : Nat) (vs : List Byte) :
    (m.writeBytes i vs).read j = if i ≤ j ∧ j < i + vs.length then vs.getD (j - i) 0 else m.read j := by
  induction vs generalizing m i with
  | nil => rw [Memory.writeBytes, if_neg (by simp)]
  | cons v vs ih =>
    rw [Memory.writeBytes, ih (Memory.write_wf h i v), Memory.read_write h]
    simp only [List.length_cons]
    rcases lt_trichotomy j i with hj | rfl | hj
    · rw [if_neg (by omega), if_neg (by omega), if_neg (by omega)]
    · rw [if_neg (by omega), if_pos rfl, if_pos (by omega)]; simp
    · obtain ⟨k, rfl⟩ : ∃ k, j = i + 1 + k := ⟨j - i - 1, by omega⟩
      have e1 : i + 1 + k - (i + 1) = k := by omega
      have e2 : i + 1 + k - i = k + 1 := by omega
      by_cases hk : k < vs.length
      · rw [if_pos (by omega), if_pos (by omega), e1, e2, List.getD_cons_succ]
      · rw [if_neg (by omega), if_neg (by omega), if_neg (by omega)]

/-- Indices outside the written range keep their bytes, whatever the form of the memory. -/
theorem Memory.read_writeBytes_outside {m : Memory} {i j : Nat} (vs : List Byte) (h : j < i ∨ i + vs.length ≤ j) :
    (m.writeBytes i vs).read j = m.read j := by
  induction vs generalizing m i with
  | nil => rfl
  | cons v vs ih =>
    simp only [List.length_cons] at h
    rw [Memory.writeBytes, ih (by omega), Memory.read_write_other v (by omega)]

@[simp] theorem Memory.readBytes_length (m : Memory) (i n : Nat) : (m.readBytes i n).length = n := by
  simp [Memory.readBytes]

/-- Byte `k` of `MemRead(space, i, n)`. -/
theorem Memory.readBytes_getElem (m : Memory) (i n k : Nat) (h : k < (m.readBytes i n).length) :
    (m.readBytes i n)[k] = m.read (i + k) := by
  simp [Memory.readBytes]

end Sys2Proof.Machine
end

