-- ==== Sys2Proof/Laws/State.lean ====
section
/-! SUPPORT. One lemma per field of State per named update, each true by rfl (but for the results of a key schedule inside
`BHASH`, which rewrite), so that no later proof unfolds a record update. -/

namespace Sys2Proof.Machine

/-! What `ZERO` (R97) does to each field. -/

@[simp] theorem eraseInternal_cipher (s : State) : (eraseInternal s).cipher = CipherState.zeroes := rfl
@[simp] theorem eraseInternal_rb (s : State) : (eraseInternal s).rb = ⟨0, 0⟩ := rfl
@[simp] theorem eraseInternal_kcur (s : State) : (eraseInternal s).kcur = 0 := rfl
@[simp] theorem eraseInternal_scur (s : State) : (eraseInternal s).scur = 0 := rfl
@[simp] theorem eraseInternal_cdata (s : State) : (eraseInternal s).cdata = Vector.replicate 8 0 := rfl
@[simp] theorem eraseInternal_ph (s : State) : (eraseInternal s).ph = Vector.replicate 64 0 := rfl
@[simp] theorem eraseInternal_sd (s : State) : (eraseInternal s).sd = Vector.replicate 64 0 := rfl
@[simp] theorem eraseInternal_tmp (s : State) : (eraseInternal s).tmp = Vector.replicate 32 0 := rfl
@[simp] theorem eraseInternal_acc (s : State) : (eraseInternal s).acc = Vector.replicate 32 0 := rfl
@[simp] theorem eraseInternal_blkcnt (s : State) : (eraseInternal s).blkcnt = 0 := rfl
@[simp] theorem eraseInternal_blkidx (s : State) : (eraseInternal s).blkidx = 0 := rfl
@[simp] theorem eraseInternal_rnd (s : State) : (eraseInternal s).rnd = 0 := rfl
@[simp] theorem eraseInternal_status (s : State) : (eraseInternal s).status = s.status := rfl
@[simp] theorem eraseInternal_rounds (s : State) : (eraseInternal s).rounds = s.rounds := rfl
@[simp] theorem eraseInternal_outlen (s : State) : (eraseInternal s).outlen = s.outlen := rfl
@[simp] theorem eraseInternal_pwlen (s : State) : (eraseInternal s).pwlen = s.pwlen := rfl
@[simp] theorem eraseInternal_saltlen (s : State) : (eraseInternal s).saltlen = s.saltlen := rfl
@[simp] theorem eraseInternal_pwd (s : State) : (eraseInternal s).pwd = s.pwd := rfl
@[simp] theorem eraseInternal_salt (s : State) : (eraseInternal s).salt = s.salt := rfl
@[simp] theorem eraseInternal_out (s : State) : (eraseInternal s).out = s.out := rfl
@[simp] theorem eraseInternal_stage (s : State) : (eraseInternal s).stage = s.stage := rfl
@[simp] theorem eraseInternal_digestReq (s : State) : (eraseInternal s).digestReq = s.digestReq := rfl
@[simp] theorem eraseInternal_opSel (s : State) : (eraseInternal s).opSel = s.opSel := rfl
@[simp] theorem eraseInternal_ops (s : State) : (eraseInternal s).ops = s.ops := rfl
@[simp] theorem eraseInternal_res (s : State) : (eraseInternal s).res = s.res := rfl
@[simp] theorem eraseInternal_script (s : State) : (eraseInternal s).script = s.script := rfl
@[simp] theorem eraseInternal_rdWord (s : State) : (eraseInternal s).rdWord = s.rdWord := rfl
@[simp] theorem eraseInternal_rdBytes (s : State) : (eraseInternal s).rdBytes = s.rdBytes := rfl
@[simp] theorem eraseInternal_freeCtr (s : State) : (eraseInternal s).freeCtr = s.freeCtr := rfl

/-! What acceptance (R87) does to each field. -/

@[simp] theorem accept_cipher (c : BitVec 8) (s : State) : (accept c s).cipher = s.cipher := rfl
@[simp] theorem accept_rb (c : BitVec 8) (s : State) : (accept c s).rb = s.rb := rfl
@[simp] theorem accept_kcur (c : BitVec 8) (s : State) : (accept c s).kcur = s.kcur := rfl
@[simp] theorem accept_scur (c : BitVec 8) (s : State) : (accept c s).scur = s.scur := rfl
@[simp] theorem accept_cdata (c : BitVec 8) (s : State) : (accept c s).cdata = s.cdata := rfl
@[simp] theorem accept_ph (c : BitVec 8) (s : State) : (accept c s).ph = s.ph := rfl
@[simp] theorem accept_sd (c : BitVec 8) (s : State) : (accept c s).sd = s.sd := rfl
@[simp] theorem accept_tmp (c : BitVec 8) (s : State) : (accept c s).tmp = s.tmp := rfl
@[simp] theorem accept_acc (c : BitVec 8) (s : State) : (accept c s).acc = s.acc := rfl
@[simp] theorem accept_blkcnt (c : BitVec 8) (s : State) : (accept c s).blkcnt = s.blkcnt := rfl
@[simp] theorem accept_blkidx (c : BitVec 8) (s : State) : (accept c s).blkidx = s.blkidx := rfl
@[simp] theorem accept_rnd (c : BitVec 8) (s : State) : (accept c s).rnd = s.rnd := rfl
@[simp] theorem accept_status (c : BitVec 8) (s : State) : (accept c s).status = statusBusy := rfl
@[simp] theorem accept_rounds (c : BitVec 8) (s : State) : (accept c s).rounds = s.rounds := rfl
@[simp] theorem accept_outlen (c : BitVec 8) (s : State) : (accept c s).outlen = s.outlen := rfl
@[simp] theorem accept_pwlen (c : BitVec 8) (s : State) : (accept c s).pwlen = s.pwlen := rfl
@[simp] theorem accept_saltlen (c : BitVec 8) (s : State) : (accept c s).saltlen = s.saltlen := rfl
@[simp] theorem accept_pwd (c : BitVec 8) (s : State) : (accept c s).pwd = s.pwd := rfl
@[simp] theorem accept_salt (c : BitVec 8) (s : State) : (accept c s).salt = s.salt := rfl
@[simp] theorem accept_out (c : BitVec 8) (s : State) : (accept c s).out = s.out := rfl
@[simp] theorem accept_stage (c : BitVec 8) (s : State) : (accept c s).stage = .accepted c := rfl
@[simp] theorem accept_digestReq (c : BitVec 8) (s : State) : (accept c s).digestReq = s.digestReq := rfl
@[simp] theorem accept_opSel (c : BitVec 8) (s : State) : (accept c s).opSel = s.opSel := rfl
@[simp] theorem accept_ops (c : BitVec 8) (s : State) : (accept c s).ops = s.ops := rfl
@[simp] theorem accept_res (c : BitVec 8) (s : State) : (accept c s).res = s.res := rfl
@[simp] theorem accept_script (c : BitVec 8) (s : State) : (accept c s).script = s.script := rfl
@[simp] theorem accept_rdWord (c : BitVec 8) (s : State) : (accept c s).rdWord = s.rdWord := rfl
@[simp] theorem accept_rdBytes (c : BitVec 8) (s : State) : (accept c s).rdBytes = s.rdBytes := rfl
@[simp] theorem accept_freeCtr (c : BitVec 8) (s : State) : (accept c s).freeCtr = s.freeCtr := rfl

/-! What normal completion (R95) does to each field. -/

@[simp] theorem reportDone_cipher (s : State) : (reportDone s).cipher = s.cipher := rfl
@[simp] theorem reportDone_rb (s : State) : (reportDone s).rb = s.rb := rfl
@[simp] theorem reportDone_kcur (s : State) : (reportDone s).kcur = s.kcur := rfl
@[simp] theorem reportDone_scur (s : State) : (reportDone s).scur = s.scur := rfl
@[simp] theorem reportDone_cdata (s : State) : (reportDone s).cdata = s.cdata := rfl
@[simp] theorem reportDone_ph (s : State) : (reportDone s).ph = s.ph := rfl
@[simp] theorem reportDone_sd (s : State) : (reportDone s).sd = s.sd := rfl
@[simp] theorem reportDone_tmp (s : State) : (reportDone s).tmp = s.tmp := rfl
@[simp] theorem reportDone_acc (s : State) : (reportDone s).acc = s.acc := rfl
@[simp] theorem reportDone_blkcnt (s : State) : (reportDone s).blkcnt = s.blkcnt := rfl
@[simp] theorem reportDone_blkidx (s : State) : (reportDone s).blkidx = s.blkidx := rfl
@[simp] theorem reportDone_rnd (s : State) : (reportDone s).rnd = s.rnd := rfl
@[simp] theorem reportDone_status (s : State) : (reportDone s).status = statusDone := rfl
@[simp] theorem reportDone_rounds (s : State) : (reportDone s).rounds = s.rounds := rfl
@[simp] theorem reportDone_outlen (s : State) : (reportDone s).outlen = s.outlen := rfl
@[simp] theorem reportDone_pwlen (s : State) : (reportDone s).pwlen = s.pwlen := rfl
@[simp] theorem reportDone_saltlen (s : State) : (reportDone s).saltlen = s.saltlen := rfl
@[simp] theorem reportDone_pwd (s : State) : (reportDone s).pwd = s.pwd := rfl
@[simp] theorem reportDone_salt (s : State) : (reportDone s).salt = s.salt := rfl
@[simp] theorem reportDone_out (s : State) : (reportDone s).out = s.out := rfl
@[simp] theorem reportDone_stage (s : State) : (reportDone s).stage = .idle := rfl
@[simp] theorem reportDone_digestReq (s : State) : (reportDone s).digestReq = s.digestReq := rfl
@[simp] theorem reportDone_opSel (s : State) : (reportDone s).opSel = s.opSel := rfl
@[simp] theorem reportDone_ops (s : State) : (reportDone s).ops = s.ops := rfl
@[simp] theorem reportDone_res (s : State) : (reportDone s).res = s.res := rfl
@[simp] theorem reportDone_script (s : State) : (reportDone s).script = s.script := rfl
@[simp] theorem reportDone_rdWord (s : State) : (reportDone s).rdWord = s.rdWord := rfl
@[simp] theorem reportDone_rdBytes (s : State) : (reportDone s).rdBytes = s.rdBytes := rfl
@[simp] theorem reportDone_freeCtr (s : State) : (reportDone s).freeCtr = s.freeCtr := rfl

/-! What abandoning a command (R106, R107) does to each field. -/

@[simp] theorem abandon_cipher (s : State) : (abandon s).cipher = s.cipher := rfl
@[simp] theorem abandon_rb (s : State) : (abandon s).rb = s.rb := rfl
@[simp] theorem abandon_kcur (s : State) : (abandon s).kcur = s.kcur := rfl
@[simp] theorem abandon_scur (s : State) : (abandon s).scur = s.scur := rfl
@[simp] theorem abandon_cdata (s : State) : (abandon s).cdata = s.cdata := rfl
@[simp] theorem abandon_ph (s : State) : (abandon s).ph = s.ph := rfl
@[simp] theorem abandon_sd (s : State) : (abandon s).sd = s.sd := rfl
@[simp] theorem abandon_tmp (s : State) : (abandon s).tmp = s.tmp := rfl
@[simp] theorem abandon_acc (s : State) : (abandon s).acc = s.acc := rfl
@[simp] theorem abandon_blkcnt (s : State) : (abandon s).blkcnt = s.blkcnt := rfl
@[simp] theorem abandon_blkidx (s : State) : (abandon s).blkidx = s.blkidx := rfl
@[simp] theorem abandon_rnd (s : State) : (abandon s).rnd = s.rnd := rfl
@[simp] theorem abandon_status (s : State) : (abandon s).status = s.status := rfl
@[simp] theorem abandon_rounds (s : State) : (abandon s).rounds = s.rounds := rfl
@[simp] theorem abandon_outlen (s : State) : (abandon s).outlen = s.outlen := rfl
@[simp] theorem abandon_pwlen (s : State) : (abandon s).pwlen = s.pwlen := rfl
@[simp] theorem abandon_saltlen (s : State) : (abandon s).saltlen = s.saltlen := rfl
@[simp] theorem abandon_pwd (s : State) : (abandon s).pwd = s.pwd := rfl
@[simp] theorem abandon_salt (s : State) : (abandon s).salt = s.salt := rfl
@[simp] theorem abandon_out (s : State) : (abandon s).out = s.out := rfl
@[simp] theorem abandon_stage (s : State) : (abandon s).stage = .idle := rfl
@[simp] theorem abandon_digestReq (s : State) : (abandon s).digestReq = none := rfl
@[simp] theorem abandon_opSel (s : State) : (abandon s).opSel = s.opSel := rfl
@[simp] theorem abandon_ops (s : State) : (abandon s).ops = s.ops := rfl
@[simp] theorem abandon_res (s : State) : (abandon s).res = s.res := rfl
@[simp] theorem abandon_script (s : State) : (abandon s).script = s.script := rfl
@[simp] theorem abandon_rdWord (s : State) : (abandon s).rdWord = s.rdWord := rfl
@[simp] theorem abandon_rdBytes (s : State) : (abandon s).rdBytes = s.rdBytes := rfl
@[simp] theorem abandon_freeCtr (s : State) : (abandon s).freeCtr = s.freeCtr := rfl

/-! What drawing the free bytes of R107 does to each field. -/

@[simp] theorem scrambleOut_cipher (s : State) : (scrambleOut s).cipher = s.cipher := rfl
@[simp] theorem scrambleOut_rb (s : State) : (scrambleOut s).rb = s.rb := rfl
@[simp] theorem scrambleOut_kcur (s : State) : (scrambleOut s).kcur = s.kcur := rfl
@[simp] theorem scrambleOut_scur (s : State) : (scrambleOut s).scur = s.scur := rfl
@[simp] theorem scrambleOut_cdata (s : State) : (scrambleOut s).cdata = s.cdata := rfl
@[simp] theorem scrambleOut_ph (s : State) : (scrambleOut s).ph = s.ph := rfl
@[simp] theorem scrambleOut_sd (s : State) : (scrambleOut s).sd = s.sd := rfl
@[simp] theorem scrambleOut_tmp (s : State) : (scrambleOut s).tmp = s.tmp := rfl
@[simp] theorem scrambleOut_acc (s : State) : (scrambleOut s).acc = s.acc := rfl
@[simp] theorem scrambleOut_blkcnt (s : State) : (scrambleOut s).blkcnt = s.blkcnt := rfl
@[simp] theorem scrambleOut_blkidx (s : State) : (scrambleOut s).blkidx = s.blkidx := rfl
@[simp] theorem scrambleOut_rnd (s : State) : (scrambleOut s).rnd = s.rnd := rfl
@[simp] theorem scrambleOut_status (s : State) : (scrambleOut s).status = s.status := rfl
@[simp] theorem scrambleOut_rounds (s : State) : (scrambleOut s).rounds = s.rounds := rfl
@[simp] theorem scrambleOut_outlen (s : State) : (scrambleOut s).outlen = s.outlen := rfl
@[simp] theorem scrambleOut_pwlen (s : State) : (scrambleOut s).pwlen = s.pwlen := rfl
@[simp] theorem scrambleOut_saltlen (s : State) : (scrambleOut s).saltlen = s.saltlen := rfl
@[simp] theorem scrambleOut_pwd (s : State) : (scrambleOut s).pwd = s.pwd := rfl
@[simp] theorem scrambleOut_salt (s : State) : (scrambleOut s).salt = s.salt := rfl
@[simp] theorem scrambleOut_out (s : State) : (scrambleOut s).out = s.out.writeBytes 0 ((List.range (min s.outlen.toNat Config.outMax)).map (Config.freeOutByte s.freeCtr)) := rfl
@[simp] theorem scrambleOut_stage (s : State) : (scrambleOut s).stage = s.stage := rfl
@[simp] theorem scrambleOut_digestReq (s : State) : (scrambleOut s).digestReq = s.digestReq := rfl
@[simp] theorem scrambleOut_opSel (s : State) : (scrambleOut s).opSel = s.opSel := rfl
@[simp] theorem scrambleOut_ops (s : State) : (scrambleOut s).ops = s.ops := rfl
@[simp] theorem scrambleOut_res (s : State) : (scrambleOut s).res = s.res := rfl
@[simp] theorem scrambleOut_script (s : State) : (scrambleOut s).script = s.script := rfl
@[simp] theorem scrambleOut_rdWord (s : State) : (scrambleOut s).rdWord = s.rdWord := rfl
@[simp] theorem scrambleOut_rdBytes (s : State) : (scrambleOut s).rdBytes = s.rdBytes := rfl
@[simp] theorem scrambleOut_freeCtr (s : State) : (scrambleOut s).freeCtr = s.freeCtr + 1 := rfl

/-! What `INIT` (R70) does to each field. -/

@[simp] theorem initCipher_cipher (s : State) : (initCipher s).cipher = initialCipher := rfl
@[simp] theorem initCipher_rb (s : State) : (initCipher s).rb = s.rb := rfl
@[simp] theorem initCipher_kcur (s : State) : (initCipher s).kcur = s.kcur := rfl
@[simp] theorem initCipher_scur (s : State) : (initCipher s).scur = s.scur := rfl
@[simp] theorem initCipher_cdata (s : State) : (initCipher s).cdata = s.cdata := rfl
@[simp] theorem initCipher_ph (s : State) : (initCipher s).ph = s.ph := rfl
@[simp] theorem initCipher_sd (s : State) : (initCipher s).sd = s.sd := rfl
@[simp] theorem initCipher_tmp (s : State) : (initCipher s).tmp = s.tmp := rfl
@[simp] theorem initCipher_acc (s : State) : (initCipher s).acc = s.acc := rfl
@[simp] theorem initCipher_blkcnt (s : State) : (initCipher s).blkcnt = s.blkcnt := rfl
@[simp] theorem initCipher_blkidx (s : State) : (initCipher s).blkidx = s.blkidx := rfl
@[simp] theorem initCipher_rnd (s : State) : (initCipher s).rnd = s.rnd := rfl
@[simp] theorem initCipher_status (s : State) : (initCipher s).status = s.status := rfl
@[simp] theorem initCipher_rounds (s : State) : (initCipher s).rounds = s.rounds := rfl
@[simp] theorem initCipher_outlen (s : State) : (initCipher s).outlen = s.outlen := rfl
@[simp] theorem initCipher_pwlen (s : State) : (initCipher s).pwlen = s.pwlen := rfl
@[simp] theorem initCipher_saltlen (s : State) : (initCipher s).saltlen = s.saltlen := rfl
@[simp] theorem initCipher_pwd (s : State) : (initCipher s).pwd = s.pwd := rfl
@[simp] theorem initCipher_salt (s : State) : (initCipher s).salt = s.salt := rfl
@[simp] theorem initCipher_out (s : State) : (initCipher s).out = s.out := rfl
@[simp] theorem initCipher_stage (s : State) : (initCipher s).stage = s.stage := rfl
@[simp] theorem initCipher_digestReq (s : State) : (initCipher s).digestReq = s.digestReq := rfl
@[simp] theorem initCipher_opSel (s : State) : (initCipher s).opSel = s.opSel := rfl
@[simp] theorem initCipher_ops (s : State) : (initCipher s).ops = s.ops := rfl
@[simp] theorem initCipher_res (s : State) : (initCipher s).res = s.res := rfl
@[simp] theorem initCipher_script (s : State) : (initCipher s).script = s.script := rfl
@[simp] theorem initCipher_rdWord (s : State) : (initCipher s).rdWord = s.rdWord := rfl
@[simp] theorem initCipher_rdBytes (s : State) : (initCipher s).rdBytes = s.rdBytes := rfl
@[simp] theorem initCipher_freeCtr (s : State) : (initCipher s).freeCtr = s.freeCtr := rfl

/-! What `SKEY` (R77) does to each field. -/

@[simp] theorem scheduleKey_cipher (K : List Byte) (s : State) : (scheduleKey K s).cipher = (keySchedule K s.cipher).cipher := rfl
@[simp] theorem scheduleKey_rb (K : List Byte) (s : State) : (scheduleKey K s).rb = (keySchedule K s.cipher).rb := rfl
@[simp] theorem scheduleKey_kcur (K : List Byte) (s : State) : (scheduleKey K s).kcur = (mixKey K s.cipher).2 := rfl
@[simp] theorem scheduleKey_scur (K : List Byte) (s : State) : (scheduleKey K s).scur = s.scur := rfl
@[simp] theorem scheduleKey_cdata (K : List Byte) (s : State) : (scheduleKey K s).cdata = s.cdata := rfl
@[simp] theorem scheduleKey_ph (K : List Byte) (s : State) : (scheduleKey K s).ph = s.ph := rfl
@[simp] theorem scheduleKey_sd (K : List Byte) (s : State) : (scheduleKey K s).sd = s.sd := rfl
@[simp] theorem scheduleKey_tmp (K : List Byte) (s : State) : (scheduleKey K s).tmp = s.tmp := rfl
@[simp] theorem scheduleKey_acc (K : List Byte) (s : State) : (scheduleKey K s).acc = s.acc := rfl
@[simp] theorem scheduleKey_blkcnt (K : List Byte) (s : State) : (scheduleKey K s).blkcnt = s.blkcnt := rfl
@[simp] theorem scheduleKey_blkidx (K : List Byte) (s : State) : (scheduleKey K s).blkidx = s.blkidx := rfl
@[simp] theorem scheduleKey_rnd (K : List Byte) (s : State) : (scheduleKey K s).rnd = s.rnd := rfl
@[simp] theorem scheduleKey_status (K : List Byte) (s : State) : (scheduleKey K s).status = s.status := rfl
@[simp] theorem scheduleKey_rounds (K : List Byte) (s : State) : (scheduleKey K s).rounds = s.rounds := rfl
@[simp] theorem scheduleKey_outlen (K : List Byte) (s : State) : (scheduleKey K s).outlen = s.outlen := rfl
@[simp] theorem scheduleKey_pwlen (K : List Byte) (s : State) : (scheduleKey K s).pwlen = s.pwlen := rfl
@[simp] theorem scheduleKey_saltlen (K : List Byte) (s : State) : (scheduleKey K s).saltlen = s.saltlen := rfl
@[simp] theorem scheduleKey_pwd (K : List Byte) (s : State) : (scheduleKey K s).pwd = s.pwd := rfl
@[simp] theorem scheduleKey_salt (K : List Byte) (s : State) : (scheduleKey K s).salt = s.salt := rfl
@[simp] theorem scheduleKey_out (K : List Byte) (s : State) : (scheduleKey K s).out = s.out := rfl
@[simp] theorem scheduleKey_stage (K : List Byte) (s : State) : (scheduleKey K s).stage = s.stage := rfl
@[simp] theorem scheduleKey_digestReq (K : List Byte) (s : State) : (scheduleKey K s).digestReq = s.digestReq := rfl
@[simp] theorem scheduleKey_opSel (K : List Byte) (s : State) : (scheduleKey K s).opSel = s.opSel := rfl
@[simp] theorem scheduleKey_ops (K : List Byte) (s : State) : (scheduleKey K s).ops = s.ops := rfl
@[simp] theorem scheduleKey_res (K : List Byte) (s : State) : (scheduleKey K s).res = s.res := rfl
@[simp] theorem scheduleKey_script (K : List Byte) (s : State) : (scheduleKey K s).script = s.script := rfl
@[simp] theorem scheduleKey_rdWord (K : List Byte) (s : State) : (scheduleKey K s).rdWord = s.rdWord := rfl
@[simp] theorem scheduleKey_rdBytes (K : List Byte) (s : State) : (scheduleKey K s).rdBytes = s.rdBytes := rfl
@[simp] theorem scheduleKey_freeCtr (K : List Byte) (s : State) : (scheduleKey K s).freeCtr = s.freeCtr := rfl

/-! What `SKEYSALT` (R78) does to each field. -/

@[simp] theorem scheduleKeySalt_cipher (K Sa : List Byte) (s : State) : (scheduleKeySalt K Sa s).cipher = (saltedKeySchedule K Sa s.cipher).cipher := rfl
@[simp] theorem scheduleKeySalt_rb (K Sa : List Byte) (s : State) : (scheduleKeySalt K Sa s).rb = (saltedKeySchedule K Sa s.cipher).rb := rfl
@[simp] theorem scheduleKeySalt_kcur (K Sa : List Byte) (s : State) : (scheduleKeySalt K Sa s).kcur = (mixKey K s.cipher).2 := rfl
@[simp] theorem scheduleKeySalt_scur (K Sa : List Byte) (s : State) : (scheduleKeySalt K Sa s).scur = (saltedKeySchedule K Sa s.cipher).cur := rfl
@[simp] theorem scheduleKeySalt_cdata (K Sa : List Byte) (s : State) : (scheduleKeySalt K Sa s).cdata = s.cdata := rfl
@[simp] theorem scheduleKeySalt_ph (K Sa : List Byte) (s : State) : (scheduleKeySalt K Sa s).ph = s.ph := rfl
@[simp] theorem scheduleKeySalt_sd (K Sa : List Byte) (s : State) : (scheduleKeySalt K Sa s).sd = s.sd := rfl
@[simp] theorem scheduleKeySalt_tmp (K Sa : List Byte) (s : State) : (scheduleKeySalt K Sa s).tmp = s.tmp := rfl
@[simp] theorem scheduleKeySalt_acc (K Sa : List Byte) (s : State) : (scheduleKeySalt K Sa s).acc = s.acc := rfl
@[simp] theorem scheduleKeySalt_blkcnt (K Sa : List Byte) (s : State) : (scheduleKeySalt K Sa s).blkcnt = s.blkcnt := rfl
@[simp] theorem scheduleKeySalt_blkidx (K Sa : List Byte) (s : State) : (scheduleKeySalt K Sa s).blkidx = s.blkidx := rfl
@[simp] theorem scheduleKeySalt_rnd (K Sa : List Byte) (s : State) : (scheduleKeySalt K Sa s).rnd = s.rnd := rfl
@[simp] theorem scheduleKeySalt_status (K Sa : List Byte) (s : State) : (scheduleKeySalt K Sa s).status = s.status := rfl
@[simp] theorem scheduleKeySalt_rounds (K Sa : List Byte) (s : State) : (scheduleKeySalt K Sa s).rounds = s.rounds := rfl
@[simp] theorem scheduleKeySalt_outlen (K Sa : List Byte) (s : State) : (scheduleKeySalt K Sa s).outlen = s.outlen := rfl
@[simp] theorem scheduleKeySalt_pwlen (K Sa : List Byte) (s : State) : (scheduleKeySalt K Sa s).pwlen = s.pwlen := rfl
@[simp] theorem scheduleKeySalt_saltlen (K Sa : List Byte) (s : State) : (scheduleKeySalt K Sa s).saltlen = s.saltlen := rfl
@[simp] theorem scheduleKeySalt_pwd (K Sa : List Byte) (s : State) : (scheduleKeySalt K Sa s).pwd = s.pwd := rfl
@[simp] theorem scheduleKeySalt_salt (K Sa : List Byte) (s : State) : (scheduleKeySalt K Sa s).salt = s.salt := rfl
@[simp] theorem scheduleKeySalt_out (K Sa : List Byte) (s : State) : (scheduleKeySalt K Sa s).out = s.out := rfl
@[simp] theorem scheduleKeySalt_stage (K Sa : List Byte) (s : State) : (scheduleKeySalt K Sa s).stage = s.stage := rfl
@[simp] theorem scheduleKeySalt_digestReq (K Sa : List Byte) (s : State) : (scheduleKeySalt K Sa s).digestReq = s.digestReq := rfl
@[simp] theorem scheduleKeySalt_opSel (K Sa : List Byte) (s : State) : (scheduleKeySalt K Sa s).opSel = s.opSel := rfl
@[simp] theorem scheduleKeySalt_ops (K Sa : List Byte) (s : State) : (scheduleKeySalt K Sa s).ops = s.ops := rfl
@[simp] theorem scheduleKeySalt_res (K Sa : List Byte) (s : State) : (scheduleKeySalt K Sa s).res = s.res := rfl
@[simp] theorem scheduleKeySalt_script (K Sa : List Byte) (s : State) : (scheduleKeySalt K Sa s).script = s.script := rfl
@[simp] theorem scheduleKeySalt_rdWord (K Sa : List Byte) (s : State) : (scheduleKeySalt K Sa s).rdWord = s.rdWord := rfl
@[simp] theorem scheduleKeySalt_rdBytes (K Sa : List Byte) (s : State) : (scheduleKeySalt K Sa s).rdBytes = s.rdBytes := rfl
@[simp] theorem scheduleKeySalt_freeCtr (K Sa : List Byte) (s : State) : (scheduleKeySalt K Sa s).freeCtr = s.freeCtr := rfl

/-! What step 4 of `BHASH` (R82) does to each field. -/

@[simp] theorem hashLoad_cipher (s : State) : (hashLoad s).cipher = s.cipher := rfl
@[simp] theorem hashLoad_rb (s : State) : (hashLoad s).rb = s.rb := rfl
@[simp] theorem hashLoad_kcur (s : State) : (hashLoad s).kcur = s.kcur := rfl
@[simp] theorem hashLoad_scur (s : State) : (hashLoad s).scur = s.scur := rfl
@[simp] theorem hashLoad_cdata (s : State) : (hashLoad s).cdata = magicWords := rfl
@[simp] theorem hashLoad_ph (s : State) : (hashLoad s).ph = s.ph := rfl
@[simp] theorem hashLoad_sd (s : State) : (hashLoad s).sd = s.sd := rfl
@[simp] theorem hashLoad_tmp (s : State) : (hashLoad s).tmp = s.tmp := rfl
@[simp] theorem hashLoad_acc (s : State) : (hashLoad s).acc = s.acc := rfl
@[simp] theorem hashLoad_blkcnt (s : State) : (hashLoad s).blkcnt = s.blkcnt := rfl
@[simp] theorem hashLoad_blkidx (s : State) : (hashLoad s).blkidx = s.blkidx := rfl
@[simp] theorem hashLoad_rnd (s : State) : (hashLoad s).rnd = s.rnd := rfl
@[simp] theorem hashLoad_status (s : State) : (hashLoad s).status = s.status := rfl
@[simp] theorem hashLoad_rounds (s : State) : (hashLoad s).rounds = s.rounds := rfl
@[simp] theorem hashLoad_outlen (s : State) : (hashLoad s).outlen = s.outlen := rfl
@[simp] theorem hashLoad_pwlen (s : State) : (hashLoad s).pwlen = s.pwlen := rfl
@[simp] theorem hashLoad_saltlen (s : State) : (hashLoad s).saltlen = s.saltlen := rfl
@[simp] theorem hashLoad_pwd (s : State) : (hashLoad s).pwd = s.pwd := rfl
@[simp] theorem hashLoad_salt (s : State) : (hashLoad s).salt = s.salt := rfl
@[simp] theorem hashLoad_out (s : State) : (hashLoad s).out = s.out := rfl
@[simp] theorem hashLoad_stage (s : State) : (hashLoad s).stage = s.stage := rfl
@[simp] theorem hashLoad_digestReq (s : State) : (hashLoad s).digestReq = s.digestReq := rfl
@[simp] theorem hashLoad_opSel (s : State) : (hashLoad s).opSel = s.opSel := rfl
@[simp] theorem hashLoad_ops (s : State) : (hashLoad s).ops = s.ops := rfl
@[simp] theorem hashLoad_res (s : State) : (hashLoad s).res = s.res := rfl
@[simp] theorem hashLoad_script (s : State) : (hashLoad s).script = s.script := rfl
@[simp] theorem hashLoad_rdWord (s : State) : (hashLoad s).rdWord = s.rdWord := rfl
@[simp] theorem hashLoad_rdBytes (s : State) : (hashLoad s).rdBytes = s.rdBytes := rfl
@[simp] theorem hashLoad_freeCtr (s : State) : (hashLoad s).freeCtr = s.freeCtr := rfl

/-! What step 5 of `BHASH`, once (R82) does to each field. -/

@[simp] theorem hashEncrypt_cipher (s : State) : (hashEncrypt s).cipher = s.cipher := rfl
@[simp] theorem hashEncrypt_rb (s : State) : (hashEncrypt s).rb = s.rb := rfl
@[simp] theorem hashEncrypt_kcur (s : State) : (hashEncrypt s).kcur = s.kcur := rfl
@[simp] theorem hashEncrypt_scur (s : State) : (hashEncrypt s).scur = s.scur := rfl
@[simp] theorem hashEncrypt_cdata (s : State) : (hashEncrypt s).cdata = encryptEight s.cipher s.cdata := rfl
@[simp] theorem hashEncrypt_ph (s : State) : (hashEncrypt s).ph = s.ph := rfl
@[simp] theorem hashEncrypt_sd (s : State) : (hashEncrypt s).sd = s.sd := rfl
@[simp] theorem hashEncrypt_tmp (s : State) : (hashEncrypt s).tmp = s.tmp := rfl
@[simp] theorem hashEncrypt_acc (s : State) : (hashEncrypt s).acc = s.acc := rfl
@[simp] theorem hashEncrypt_blkcnt (s : State) : (hashEncrypt s).blkcnt = s.blkcnt := rfl
@[simp] theorem hashEncrypt_blkidx (s : State) : (hashEncrypt s).blkidx = s.blkidx := rfl
@[simp] theorem hashEncrypt_rnd (s : State) : (hashEncrypt s).rnd = s.rnd := rfl
@[simp] theorem hashEncrypt_status (s : State) : (hashEncrypt s).status = s.status := rfl
@[simp] theorem hashEncrypt_rounds (s : State) : (hashEncrypt s).rounds = s.rounds := rfl
@[simp] theorem hashEncrypt_outlen (s : State) : (hashEncrypt s).outlen = s.outlen := rfl
@[simp] theorem hashEncrypt_pwlen (s : State) : (hashEncrypt s).pwlen = s.pwlen := rfl
@[simp] theorem hashEncrypt_saltlen (s : State) : (hashEncrypt s).saltlen = s.saltlen := rfl
@[simp] theorem hashEncrypt_pwd (s : State) : (hashEncrypt s).pwd = s.pwd := rfl
@[simp] theorem hashEncrypt_salt (s : State) : (hashEncrypt s).salt = s.salt := rfl
@[simp] theorem hashEncrypt_out (s : State) : (hashEncrypt s).out = s.out := rfl
@[simp] theorem hashEncrypt_stage (s : State) : (hashEncrypt s).stage = s.stage := rfl
@[simp] theorem hashEncrypt_digestReq (s : State) : (hashEncrypt s).digestReq = s.digestReq := rfl
@[simp] theorem hashEncrypt_opSel (s : State) : (hashEncrypt s).opSel = s.opSel := rfl
@[simp] theorem hashEncrypt_ops (s : State) : (hashEncrypt s).ops = s.ops := rfl
@[simp] theorem hashEncrypt_res (s : State) : (hashEncrypt s).res = s.res := rfl
@[simp] theorem hashEncrypt_script (s : State) : (hashEncrypt s).script = s.script := rfl
@[simp] theorem hashEncrypt_rdWord (s : State) : (hashEncrypt s).rdWord = s.rdWord := rfl
@[simp] theorem hashEncrypt_rdBytes (s : State) : (hashEncrypt s).rdBytes = s.rdBytes := rfl
@[simp] theorem hashEncrypt_freeCtr (s : State) : (hashEncrypt s).freeCtr = s.freeCtr := rfl

/-! What step 6 of `BHASH` (R82) does to each field. -/

@[simp] theorem hashEncode_cipher (s : State) : (hashEncode s).cipher = s.cipher := rfl
@[simp] theorem hashEncode_rb (s : State) : (hashEncode s).rb = s.rb := rfl
@[simp] theorem hashEncode_kcur (s : State) : (hashEncode s).kcur = s.kcur := rfl
@[simp] theorem hashEncode_scur (s : State) : (hashEncode s).scur = s.scur := rfl
@[simp] theorem hashEncode_cdata (s : State) : (hashEncode s).cdata = s.cdata := rfl
@[simp] theorem hashEncode_ph (s : State) : (hashEncode s).ph = s.ph := rfl
@[simp] theorem hashEncode_sd (s : State) : (hashEncode s).sd = s.sd := rfl
@[simp] theorem hashEncode_tmp (s : State) : (hashEncode s).tmp = encodeHash s.cdata := rfl
@[simp] theorem hashEncode_acc (s : State) : (hashEncode s).acc = s.acc := rfl
@[simp] theorem hashEncode_blkcnt (s : State) : (hashEncode s).blkcnt = s.blkcnt := rfl
@[simp] theorem hashEncode_blkidx (s : State) : (hashEncode s).blkidx = s.blkidx := rfl
@[simp] theorem hashEncode_rnd (s : State) : (hashEncode s).rnd = s.rnd := rfl
@[simp] theorem hashEncode_status (s : State) : (hashEncode s).status = s.status := rfl
@[simp] theorem hashEncode_rounds (s : State) : (hashEncode s).rounds = s.rounds := rfl
@[simp] theorem hashEncode_outlen (s : State) : (hashEncode s).outlen = s.outlen := rfl
@[simp] theorem hashEncode_pwlen (s : State) : (hashEncode s).pwlen = s.pwlen := rfl
@[simp] theorem hashEncode_saltlen (s : State) : (hashEncode s).saltlen = s.saltlen := rfl
@[simp] theorem hashEncode_pwd (s : State) : (hashEncode s).pwd = s.pwd := rfl
@[simp] theorem hashEncode_salt (s : State) : (hashEncode s).salt = s.salt := rfl
@[simp] theorem hashEncode_out (s : State) : (hashEncode s).out = s.out := rfl
@[simp] theorem hashEncode_stage (s : State) : (hashEncode s).stage = s.stage := rfl
@[simp] theorem hashEncode_digestReq (s : State) : (hashEncode s).digestReq = s.digestReq := rfl
@[simp] theorem hashEncode_opSel (s : State) : (hashEncode s).opSel = s.opSel := rfl
@[simp] theorem hashEncode_ops (s : State) : (hashEncode s).ops = s.ops := rfl
@[simp] theorem hashEncode_res (s : State) : (hashEncode s).res = s.res := rfl
@[simp] theorem hashEncode_script (s : State) : (hashEncode s).script = s.script := rfl
@[simp] theorem hashEncode_rdWord (s : State) : (hashEncode s).rdWord = s.rdWord := rfl
@[simp] theorem hashEncode_rdBytes (s : State) : (hashEncode s).rdBytes = s.rdBytes := rfl
@[simp] theorem hashEncode_freeCtr (s : State) : (hashEncode s).freeCtr = s.freeCtr := rfl

/-! What step 1 of `DERIVE` (R89) does to each field. -/

@[simp] theorem storePreHash_cipher (m : List Byte) (s : State) : (storePreHash m s).cipher = s.cipher := rfl
@[simp] theorem storePreHash_rb (m : List Byte) (s : State) : (storePreHash m s).rb = s.rb := rfl
@[simp] theorem storePreHash_kcur (m : List Byte) (s : State) : (storePreHash m s).kcur = s.kcur := rfl
@[simp] theorem storePreHash_scur (m : List Byte) (s : State) : (storePreHash m s).scur = s.scur := rfl
@[simp] theorem storePreHash_cdata (m : List Byte) (s : State) : (storePreHash m s).cdata = s.cdata := rfl
@[simp] theorem storePreHash_ph (m : List Byte) (s : State) : (storePreHash m s).ph = Config.sha512 m := rfl
@[simp] theorem storePreHash_sd (m : List Byte) (s : State) : (storePreHash m s).sd = s.sd := rfl
@[simp] theorem storePreHash_tmp (m : List Byte) (s : State) : (storePreHash m s).tmp = s.tmp := rfl
@[simp] theorem storePreHash_acc (m : List Byte) (s : State) : (storePreHash m s).acc = s.acc := rfl
@[simp] theorem storePreHash_blkcnt (m : List Byte) (s : State) : (storePreHash m s).blkcnt = s.blkcnt := rfl
@[simp] theorem storePreHash_blkidx (m : List Byte) (s : State) : (storePreHash m s).blkidx = s.blkidx := rfl
@[simp] theorem storePreHash_rnd (m : List Byte) (s : State) : (storePreHash m s).rnd = s.rnd := rfl
@[simp] theorem storePreHash_status (m : List Byte) (s : State) : (storePreHash m s).status = s.status := rfl
@[simp] theorem storePreHash_rounds (m : List Byte) (s : State) : (storePreHash m s).rounds = s.rounds := rfl
@[simp] theorem storePreHash_outlen (m : List Byte) (s : State) : (storePreHash m s).outlen = s.outlen := rfl
@[simp] theorem storePreHash_pwlen (m : List Byte) (s : State) : (storePreHash m s).pwlen = s.pwlen := rfl
@[simp] theorem storePreHash_saltlen (m : List Byte) (s : State) : (storePreHash m s).saltlen = s.saltlen := rfl
@[simp] theorem storePreHash_pwd (m : List Byte) (s : State) : (storePreHash m s).pwd = s.pwd := rfl
@[simp] theorem storePreHash_salt (m : List Byte) (s : State) : (storePreHash m s).salt = s.salt := rfl
@[simp] theorem storePreHash_out (m : List Byte) (s : State) : (storePreHash m s).out = s.out := rfl
@[simp] theorem storePreHash_stage (m : List Byte) (s : State) : (storePreHash m s).stage = s.stage := rfl
@[simp] theorem storePreHash_digestReq (m : List Byte) (s : State) : (storePreHash m s).digestReq = s.digestReq := rfl
@[simp] theorem storePreHash_opSel (m : List Byte) (s : State) : (storePreHash m s).opSel = s.opSel := rfl
@[simp] theorem storePreHash_ops (m : List Byte) (s : State) : (storePreHash m s).ops = s.ops := rfl
@[simp] theorem storePreHash_res (m : List Byte) (s : State) : (storePreHash m s).res = s.res := rfl
@[simp] theorem storePreHash_script (m : List Byte) (s : State) : (storePreHash m s).script = s.script := rfl
@[simp] theorem storePreHash_rdWord (m : List Byte) (s : State) : (storePreHash m s).rdWord = s.rdWord := rfl
@[simp] theorem storePreHash_rdBytes (m : List Byte) (s : State) : (storePreHash m s).rdBytes = s.rdBytes := rfl
@[simp] theorem storePreHash_freeCtr (m : List Byte) (s : State) : (storePreHash m s).freeCtr = s.freeCtr := rfl

/-! What storing a digest in steps 3a and 3c of `DERIVE` (R91, R93) does to each field. -/

@[simp] theorem storeSaltDigest_cipher (m : List Byte) (s : State) : (storeSaltDigest m s).cipher = s.cipher := rfl
@[simp] theorem storeSaltDigest_rb (m : List Byte) (s : State) : (storeSaltDigest m s).rb = s.rb := rfl
@[simp] theorem storeSaltDigest_kcur (m : List Byte) (s : State) : (storeSaltDigest m s).kcur = s.kcur := rfl
@[simp] theorem storeSaltDigest_scur (m : List Byte) (s : State) : (storeSaltDigest m s).scur = s.scur := rfl
@[simp] theorem storeSaltDigest_cdata (m : List Byte) (s : State) : (storeSaltDigest m s).cdata = s.cdata := rfl
@[simp] theorem storeSaltDigest_ph (m : List Byte) (s : State) : (storeSaltDigest m s).ph = s.ph := rfl
@[simp] theorem storeSaltDigest_sd (m : List Byte) (s : State) : (storeSaltDigest m s).sd = Config.sha512 m := rfl
@[simp] theorem storeSaltDigest_tmp (m : List Byte) (s : State) : (storeSaltDigest m s).tmp = s.tmp := rfl
@[simp] theorem storeSaltDigest_acc (m : List Byte) (s : State) : (storeSaltDigest m s).acc = s.acc := rfl
@[simp] theorem storeSaltDigest_blkcnt (m : List Byte) (s : State) : (storeSaltDigest m s).blkcnt = s.blkcnt := rfl
@[simp] theorem storeSaltDigest_blkidx (m : List Byte) (s : State) : (storeSaltDigest m s).blkidx = s.blkidx := rfl
@[simp] theorem storeSaltDigest_rnd (m : List Byte) (s : State) : (storeSaltDigest m s).rnd = s.rnd := rfl
@[simp] theorem storeSaltDigest_status (m : List Byte) (s : State) : (storeSaltDigest m s).status = s.status := rfl
@[simp] theorem storeSaltDigest_rounds (m : List Byte) (s : State) : (storeSaltDigest m s).rounds = s.rounds := rfl
@[simp] theorem storeSaltDigest_outlen (m : List Byte) (s : State) : (storeSaltDigest m s).outlen = s.outlen := rfl
@[simp] theorem storeSaltDigest_pwlen (m : List Byte) (s : State) : (storeSaltDigest m s).pwlen = s.pwlen := rfl
@[simp] theorem storeSaltDigest_saltlen (m : List Byte) (s : State) : (storeSaltDigest m s).saltlen = s.saltlen := rfl
@[simp] theorem storeSaltDigest_pwd (m : List Byte) (s : State) : (storeSaltDigest m s).pwd = s.pwd := rfl
@[simp] theorem storeSaltDigest_salt (m : List Byte) (s : State) : (storeSaltDigest m s).salt = s.salt := rfl
@[simp] theorem storeSaltDigest_out (m : List Byte) (s : State) : (storeSaltDigest m s).out = s.out := rfl
@[simp] theorem storeSaltDigest_stage (m : List Byte) (s : State) : (storeSaltDigest m s).stage = s.stage := rfl
@[simp] theorem storeSaltDigest_digestReq (m : List Byte) (s : State) : (storeSaltDigest m s).digestReq = s.digestReq := rfl
@[simp] theorem storeSaltDigest_opSel (m : List Byte) (s : State) : (storeSaltDigest m s).opSel = s.opSel := rfl
@[simp] theorem storeSaltDigest_ops (m : List Byte) (s : State) : (storeSaltDigest m s).ops = s.ops := rfl
@[simp] theorem storeSaltDigest_res (m : List Byte) (s : State) : (storeSaltDigest m s).res = s.res := rfl
@[simp] theorem storeSaltDigest_script (m : List Byte) (s : State) : (storeSaltDigest m s).script = s.script := rfl
@[simp] theorem storeSaltDigest_rdWord (m : List Byte) (s : State) : (storeSaltDigest m s).rdWord = s.rdWord := rfl
@[simp] theorem storeSaltDigest_rdBytes (m : List Byte) (s : State) : (storeSaltDigest m s).rdBytes = s.rdBytes := rfl
@[simp] theorem storeSaltDigest_freeCtr (m : List Byte) (s : State) : (storeSaltDigest m s).freeCtr = s.freeCtr := rfl

/-! What step 2 of `DERIVE` (R90) does to each field. -/

@[simp] theorem countBlocks_cipher (s : State) : (countBlocks s).cipher = s.cipher := rfl
@[simp] theorem countBlocks_rb (s : State) : (countBlocks s).rb = s.rb := rfl
@[simp] theorem countBlocks_kcur (s : State) : (countBlocks s).kcur = s.kcur := rfl
@[simp] theorem countBlocks_scur (s : State) : (countBlocks s).scur = s.scur := rfl
@[simp] theorem countBlocks_cdata (s : State) : (countBlocks s).cdata = s.cdata := rfl
@[simp] theorem countBlocks_ph (s : State) : (countBlocks s).ph = s.ph := rfl
@[simp] theorem countBlocks_sd (s : State) : (countBlocks s).sd = s.sd := rfl
@[simp] theorem countBlocks_tmp (s : State) : (countBlocks s).tmp = s.tmp := rfl
@[simp] theorem countBlocks_acc (s : State) : (countBlocks s).acc = s.acc := rfl
@[simp] theorem countBlocks_blkcnt (s : State) : (countBlocks s).blkcnt = ceilDiv s.outlen.toNat Config.hlen := rfl
@[simp] theorem countBlocks_blkidx (s : State) : (countBlocks s).blkidx = 0 := rfl
@[simp] theorem countBlocks_rnd (s : State) : (countBlocks s).rnd = s.rnd := rfl
@[simp] theorem countBlocks_status (s : State) : (countBlocks s).status = s.status := rfl
@[simp] theorem countBlocks_rounds (s : State) : (countBlocks s).rounds = s.rounds := rfl
@[simp] theorem countBlocks_outlen (s : State) : (countBlocks s).outlen = s.outlen := rfl
@[simp] theorem countBlocks_pwlen (s : State) : (countBlocks s).pwlen = s.pwlen := rfl
@[simp] theorem countBlocks_saltlen (s : State) : (countBlocks s).saltlen = s.saltlen := rfl
@[simp] theorem countBlocks_pwd (s : State) : (countBlocks s).pwd = s.pwd := rfl
@[simp] theorem countBlocks_salt (s : State) : (countBlocks s).salt = s.salt := rfl
@[simp] theorem countBlocks_out (s : State) : (countBlocks s).out = s.out := rfl
@[simp] theorem countBlocks_stage (s : State) : (countBlocks s).stage = s.stage := rfl
@[simp] theorem countBlocks_digestReq (s : State) : (countBlocks s).digestReq = s.digestReq := rfl
@[simp] theorem countBlocks_opSel (s : State) : (countBlocks s).opSel = s.opSel := rfl
@[simp] theorem countBlocks_ops (s : State) : (countBlocks s).ops = s.ops := rfl
@[simp] theorem countBlocks_res (s : State) : (countBlocks s).res = s.res := rfl
@[simp] theorem countBlocks_script (s : State) : (countBlocks s).script = s.script := rfl
@[simp] theorem countBlocks_rdWord (s : State) : (countBlocks s).rdWord = s.rdWord := rfl
@[simp] theorem countBlocks_rdBytes (s : State) : (countBlocks s).rdBytes = s.rdBytes := rfl
@[simp] theorem countBlocks_freeCtr (s : State) : (countBlocks s).freeCtr = s.freeCtr := rfl

/-! What step 3b of `DERIVE` (R92) does to each field. -/

@[simp] theorem assignAcc_cipher (s : State) : (assignAcc s).cipher = s.cipher := rfl
@[simp] theorem assignAcc_rb (s : State) : (assignAcc s).rb = s.rb := rfl
@[simp] theorem assignAcc_kcur (s : State) : (assignAcc s).kcur = s.kcur := rfl
@[simp] theorem assignAcc_scur (s : State) : (assignAcc s).scur = s.scur := rfl
@[simp] theorem assignAcc_cdata (s : State) : (assignAcc s).cdata = s.cdata := rfl
@[simp] theorem assignAcc_ph (s : State) : (assignAcc s).ph = s.ph := rfl
@[simp] theorem assignAcc_sd (s : State) : (assignAcc s).sd = s.sd := rfl
@[simp] theorem assignAcc_tmp (s : State) : (assignAcc s).tmp = s.tmp := rfl
@[simp] theorem assignAcc_acc (s : State) : (assignAcc s).acc = s.tmp := rfl
@[simp] theorem assignAcc_blkcnt (s : State) : (assignAcc s).blkcnt = s.blkcnt := rfl
@[simp] theorem assignAcc_blkidx (s : State) : (assignAcc s).blkidx = s.blkidx := rfl
@[simp] theorem assignAcc_rnd (s : State) : (assignAcc s).rnd = s.rnd := rfl
@[simp] theorem assignAcc_status (s : State) : (assignAcc s).status = s.status := rfl
@[simp] theorem assignAcc_rounds (s : State) : (assignAcc s).rounds = s.rounds := rfl
@[simp] theorem assignAcc_outlen (s : State) : (assignAcc s).outlen = s.outlen := rfl
@[simp] theorem assignAcc_pwlen (s : State) : (assignAcc s).pwlen = s.pwlen := rfl
@[simp] theorem assignAcc_saltlen (s : State) : (assignAcc s).saltlen = s.saltlen := rfl
@[simp] theorem assignAcc_pwd (s : State) : (assignAcc s).pwd = s.pwd := rfl
@[simp] theorem assignAcc_salt (s : State) : (assignAcc s).salt = s.salt := rfl
@[simp] theorem assignAcc_out (s : State) : (assignAcc s).out = s.out := rfl
@[simp] theorem assignAcc_stage (s : State) : (assignAcc s).stage = s.stage := rfl
@[simp] theorem assignAcc_digestReq (s : State) : (assignAcc s).digestReq = s.digestReq := rfl
@[simp] theorem assignAcc_opSel (s : State) : (assignAcc s).opSel = s.opSel := rfl
@[simp] theorem assignAcc_ops (s : State) : (assignAcc s).ops = s.ops := rfl
@[simp] theorem assignAcc_res (s : State) : (assignAcc s).res = s.res := rfl
@[simp] theorem assignAcc_script (s : State) : (assignAcc s).script = s.script := rfl
@[simp] theorem assignAcc_rdWord (s : State) : (assignAcc s).rdWord = s.rdWord := rfl
@[simp] theorem assignAcc_rdBytes (s : State) : (assignAcc s).rdBytes = s.rdBytes := rfl
@[simp] theorem assignAcc_freeCtr (s : State) : (assignAcc s).freeCtr = s.freeCtr := rfl

/-! What the XOR of step 3c (R93) does to each field. -/

@[simp] theorem xorAcc_cipher (s : State) : (xorAcc s).cipher = s.cipher := rfl
@[simp] theorem xorAcc_rb (s : State) : (xorAcc s).rb = s.rb := rfl
@[simp] theorem xorAcc_kcur (s : State) : (xorAcc s).kcur = s.kcur := rfl
@[simp] theorem xorAcc_scur (s : State) : (xorAcc s).scur = s.scur := rfl
@[simp] theorem xorAcc_cdata (s : State) : (xorAcc s).cdata = s.cdata := rfl
@[simp] theorem xorAcc_ph (s : State) : (xorAcc s).ph = s.ph := rfl
@[simp] theorem xorAcc_sd (s : State) : (xorAcc s).sd = s.sd := rfl
@[simp] theorem xorAcc_tmp (s : State) : (xorAcc s).tmp = s.tmp := rfl
@[simp] theorem xorAcc_acc (s : State) : (xorAcc s).acc = Vector.zipWith (· ^^^ ·) s.acc s.tmp := rfl
@[simp] theorem xorAcc_blkcnt (s : State) : (xorAcc s).blkcnt = s.blkcnt := rfl
@[simp] theorem xorAcc_blkidx (s : State) : (xorAcc s).blkidx = s.blkidx := rfl
@[simp] theorem xorAcc_rnd (s : State) : (xorAcc s).rnd = s.rnd := rfl
@[simp] theorem xorAcc_status (s : State) : (xorAcc s).status = s.status := rfl
@[simp] theorem xorAcc_rounds (s : State) : (xorAcc s).rounds = s.rounds := rfl
@[simp] theorem xorAcc_outlen (s : State) : (xorAcc s).outlen = s.outlen := rfl
@[simp] theorem xorAcc_pwlen (s : State) : (xorAcc s).pwlen = s.pwlen := rfl
@[simp] theorem xorAcc_saltlen (s : State) : (xorAcc s).saltlen = s.saltlen := rfl
@[simp] theorem xorAcc_pwd (s : State) : (xorAcc s).pwd = s.pwd := rfl
@[simp] theorem xorAcc_salt (s : State) : (xorAcc s).salt = s.salt := rfl
@[simp] theorem xorAcc_out (s : State) : (xorAcc s).out = s.out := rfl
@[simp] theorem xorAcc_stage (s : State) : (xorAcc s).stage = s.stage := rfl
@[simp] theorem xorAcc_digestReq (s : State) : (xorAcc s).digestReq = s.digestReq := rfl
@[simp] theorem xorAcc_opSel (s : State) : (xorAcc s).opSel = s.opSel := rfl
@[simp] theorem xorAcc_ops (s : State) : (xorAcc s).ops = s.ops := rfl
@[simp] theorem xorAcc_res (s : State) : (xorAcc s).res = s.res := rfl
@[simp] theorem xorAcc_script (s : State) : (xorAcc s).script = s.script := rfl
@[simp] theorem xorAcc_rdWord (s : State) : (xorAcc s).rdWord = s.rdWord := rfl
@[simp] theorem xorAcc_rdBytes (s : State) : (xorAcc s).rdBytes = s.rdBytes := rfl
@[simp] theorem xorAcc_freeCtr (s : State) : (xorAcc s).freeCtr = s.freeCtr := rfl

/-! What step 3d of `DERIVE` (R94) does to each field. -/

@[simp] theorem scatterAcc_cipher (s : State) : (scatterAcc s).cipher = s.cipher := rfl
@[simp] theorem scatterAcc_rb (s : State) : (scatterAcc s).rb = s.rb := rfl
@[simp] theorem scatterAcc_kcur (s : State) : (scatterAcc s).kcur = s.kcur := rfl
@[simp] theorem scatterAcc_scur (s : State) : (scatterAcc s).scur = s.scur := rfl
@[simp] theorem scatterAcc_cdata (s : State) : (scatterAcc s).cdata = s.cdata := rfl
@[simp] theorem scatterAcc_ph (s : State) : (scatterAcc s).ph = s.ph := rfl
@[simp] theorem scatterAcc_sd (s : State) : (scatterAcc s).sd = s.sd := rfl
@[simp] theorem scatterAcc_tmp (s : State) : (scatterAcc s).tmp = s.tmp := rfl
@[simp] theorem scatterAcc_acc (s : State) : (scatterAcc s).acc = s.acc := rfl
@[simp] theorem scatterAcc_blkcnt (s : State) : (scatterAcc s).blkcnt = s.blkcnt := rfl
@[simp] theorem scatterAcc_blkidx (s : State) : (scatterAcc s).blkidx = s.blkidx := rfl
@[simp] theorem scatterAcc_rnd (s : State) : (scatterAcc s).rnd = s.rnd := rfl
@[simp] theorem scatterAcc_status (s : State) : (scatterAcc s).status = s.status := rfl
@[simp] theorem scatterAcc_rounds (s : State) : (scatterAcc s).rounds = s.rounds := rfl
@[simp] theorem scatterAcc_outlen (s : State) : (scatterAcc s).outlen = s.outlen := rfl
@[simp] theorem scatterAcc_pwlen (s : State) : (scatterAcc s).pwlen = s.pwlen := rfl
@[simp] theorem scatterAcc_saltlen (s : State) : (scatterAcc s).saltlen = s.saltlen := rfl
@[simp] theorem scatterAcc_pwd (s : State) : (scatterAcc s).pwd = s.pwd := rfl
@[simp] theorem scatterAcc_salt (s : State) : (scatterAcc s).salt = s.salt := rfl
@[simp] theorem scatterAcc_out (s : State) : (scatterAcc s).out = scatteredOut s := rfl
@[simp] theorem scatterAcc_stage (s : State) : (scatterAcc s).stage = s.stage := rfl
@[simp] theorem scatterAcc_digestReq (s : State) : (scatterAcc s).digestReq = s.digestReq := rfl
@[simp] theorem scatterAcc_opSel (s : State) : (scatterAcc s).opSel = s.opSel := rfl
@[simp] theorem scatterAcc_ops (s : State) : (scatterAcc s).ops = s.ops := rfl
@[simp] theorem scatterAcc_res (s : State) : (scatterAcc s).res = s.res := rfl
@[simp] theorem scatterAcc_script (s : State) : (scatterAcc s).script = s.script := rfl
@[simp] theorem scatterAcc_rdWord (s : State) : (scatterAcc s).rdWord = s.rdWord := rfl
@[simp] theorem scatterAcc_rdBytes (s : State) : (scatterAcc s).rdBytes = s.rdBytes := rfl
@[simp] theorem scatterAcc_freeCtr (s : State) : (scatterAcc s).freeCtr = s.freeCtr := rfl

/-! What a digest request (R96) does to each field. -/

@[simp] theorem sendDigest_cipher (m : List Byte) (g : Stage) (s : State) : (sendDigest m g s).cipher = s.cipher := rfl
@[simp] theorem sendDigest_rb (m : List Byte) (g : Stage) (s : State) : (sendDigest m g s).rb = s.rb := rfl
@[simp] theorem sendDigest_kcur (m : List Byte) (g : Stage) (s : State) : (sendDigest m g s).kcur = s.kcur := rfl
@[simp] theorem sendDigest_scur (m : List Byte) (g : Stage) (s : State) : (sendDigest m g s).scur = s.scur := rfl
@[simp] theorem sendDigest_cdata (m : List Byte) (g : Stage) (s : State) : (sendDigest m g s).cdata = s.cdata := rfl
@[simp] theorem sendDigest_ph (m : List Byte) (g : Stage) (s : State) : (sendDigest m g s).ph = s.ph := rfl
@[simp] theorem sendDigest_sd (m : List Byte) (g : Stage) (s : State) : (sendDigest m g s).sd = s.sd := rfl
@[simp] theorem sendDigest_tmp (m : List Byte) (g : Stage) (s : State) : (sendDigest m g s).tmp = s.tmp := rfl
@[simp] theorem sendDigest_acc (m : List Byte) (g : Stage) (s : State) : (sendDigest m g s).acc = s.acc := rfl
@[simp] theorem sendDigest_blkcnt (m : List Byte) (g : Stage) (s : State) : (sendDigest m g s).blkcnt = s.blkcnt := rfl
@[simp] theorem sendDigest_blkidx (m : List Byte) (g : Stage) (s : State) : (sendDigest m g s).blkidx = s.blkidx := rfl
@[simp] theorem sendDigest_rnd (m : List Byte) (g : Stage) (s : State) : (sendDigest m g s).rnd = s.rnd := rfl
@[simp] theorem sendDigest_status (m : List Byte) (g : Stage) (s : State) : (sendDigest m g s).status = s.status := rfl
@[simp] theorem sendDigest_rounds (m : List Byte) (g : Stage) (s : State) : (sendDigest m g s).rounds = s.rounds := rfl
@[simp] theorem sendDigest_outlen (m : List Byte) (g : Stage) (s : State) : (sendDigest m g s).outlen = s.outlen := rfl
@[simp] theorem sendDigest_pwlen (m : List Byte) (g : Stage) (s : State) : (sendDigest m g s).pwlen = s.pwlen := rfl
@[simp] theorem sendDigest_saltlen (m : List Byte) (g : Stage) (s : State) : (sendDigest m g s).saltlen = s.saltlen := rfl
@[simp] theorem sendDigest_pwd (m : List Byte) (g : Stage) (s : State) : (sendDigest m g s).pwd = s.pwd := rfl
@[simp] theorem sendDigest_salt (m : List Byte) (g : Stage) (s : State) : (sendDigest m g s).salt = s.salt := rfl
@[simp] theorem sendDigest_out (m : List Byte) (g : Stage) (s : State) : (sendDigest m g s).out = s.out := rfl
@[simp] theorem sendDigest_stage (m : List Byte) (g : Stage) (s : State) : (sendDigest m g s).stage = g := rfl
@[simp] theorem sendDigest_digestReq (m : List Byte) (g : Stage) (s : State) : (sendDigest m g s).digestReq = some m := rfl
@[simp] theorem sendDigest_opSel (m : List Byte) (g : Stage) (s : State) : (sendDigest m g s).opSel = s.opSel := rfl
@[simp] theorem sendDigest_ops (m : List Byte) (g : Stage) (s : State) : (sendDigest m g s).ops = s.ops := rfl
@[simp] theorem sendDigest_res (m : List Byte) (g : Stage) (s : State) : (sendDigest m g s).res = s.res := rfl
@[simp] theorem sendDigest_script (m : List Byte) (g : Stage) (s : State) : (sendDigest m g s).script = s.script := rfl
@[simp] theorem sendDigest_rdWord (m : List Byte) (g : Stage) (s : State) : (sendDigest m g s).rdWord = s.rdWord := rfl
@[simp] theorem sendDigest_rdBytes (m : List Byte) (g : Stage) (s : State) : (sendDigest m g s).rdBytes = s.rdBytes := rfl
@[simp] theorem sendDigest_freeCtr (m : List Byte) (g : Stage) (s : State) : (sendDigest m g s).freeCtr = s.freeCtr := rfl

/-! What taking the presented operation (R61) does to each field. -/

@[simp] theorem takePresented_cipher (s : State) : (takePresented s).cipher = s.cipher := rfl
@[simp] theorem takePresented_rb (s : State) : (takePresented s).rb = s.rb := rfl
@[simp] theorem takePresented_kcur (s : State) : (takePresented s).kcur = s.kcur := rfl
@[simp] theorem takePresented_scur (s : State) : (takePresented s).scur = s.scur := rfl
@[simp] theorem takePresented_cdata (s : State) : (takePresented s).cdata = s.cdata := rfl
@[simp] theorem takePresented_ph (s : State) : (takePresented s).ph = s.ph := rfl
@[simp] theorem takePresented_sd (s : State) : (takePresented s).sd = s.sd := rfl
@[simp] theorem takePresented_tmp (s : State) : (takePresented s).tmp = s.tmp := rfl
@[simp] theorem takePresented_acc (s : State) : (takePresented s).acc = s.acc := rfl
@[simp] theorem takePresented_blkcnt (s : State) : (takePresented s).blkcnt = s.blkcnt := rfl
@[simp] theorem takePresented_blkidx (s : State) : (takePresented s).blkidx = s.blkidx := rfl
@[simp] theorem takePresented_rnd (s : State) : (takePresented s).rnd = s.rnd := rfl
@[simp] theorem takePresented_status (s : State) : (takePresented s).status = s.status := rfl
@[simp] theorem takePresented_rounds (s : State) : (takePresented s).rounds = s.rounds := rfl
@[simp] theorem takePresented_outlen (s : State) : (takePresented s).outlen = s.outlen := rfl
@[simp] theorem takePresented_pwlen (s : State) : (takePresented s).pwlen = s.pwlen := rfl
@[simp] theorem takePresented_saltlen (s : State) : (takePresented s).saltlen = s.saltlen := rfl
@[simp] theorem takePresented_pwd (s : State) : (takePresented s).pwd = s.pwd := rfl
@[simp] theorem takePresented_salt (s : State) : (takePresented s).salt = s.salt := rfl
@[simp] theorem takePresented_out (s : State) : (takePresented s).out = s.out := rfl
@[simp] theorem takePresented_stage (s : State) : (takePresented s).stage = s.stage := rfl
@[simp] theorem takePresented_digestReq (s : State) : (takePresented s).digestReq = s.digestReq := rfl
@[simp] theorem takePresented_opSel (s : State) : (takePresented s).opSel = none := rfl
@[simp] theorem takePresented_ops (s : State) : (takePresented s).ops = s.ops := rfl
@[simp] theorem takePresented_res (s : State) : (takePresented s).res = s.res := rfl
@[simp] theorem takePresented_script (s : State) : (takePresented s).script = s.script := rfl
@[simp] theorem takePresented_rdWord (s : State) : (takePresented s).rdWord = s.rdWord := rfl
@[simp] theorem takePresented_rdBytes (s : State) : (takePresented s).rdBytes = s.rdBytes := rfl
@[simp] theorem takePresented_freeCtr (s : State) : (takePresented s).freeCtr = s.freeCtr := rfl

/-! What a byte source stands for (R61). -/

@[simp] theorem sourceBytes_ph (s : State) : sourceBytes s .ph = s.ph.toList := rfl
@[simp] theorem sourceBytes_sd (s : State) : sourceBytes s .sd = s.sd.toList := rfl
@[simp] theorem sourceBytes_given (s : State) (B : List Byte) : sourceBytes s (.given B) = B := rfl

/-! What step 2 of `BHASH` (R82) does to each field. -/

@[simp] theorem hashSalted_cipher (s : State) :
    (hashSalted s).cipher = (saltedKeySchedule s.ph.toList s.sd.toList s.cipher).cipher := by
  rw [hashSalted, scheduleKeySalt_cipher, sourceBytes_ph, sourceBytes_sd]
@[simp] theorem hashSalted_rb (s : State) : (hashSalted s).rb = (saltedKeySchedule s.ph.toList s.sd.toList s.cipher).rb := by
  rw [hashSalted, scheduleKeySalt_rb, sourceBytes_ph, sourceBytes_sd]
@[simp] theorem hashSalted_kcur (s : State) : (hashSalted s).kcur = (mixKey s.ph.toList s.cipher).2 := by
  rw [hashSalted, scheduleKeySalt_kcur, sourceBytes_ph]
@[simp] theorem hashSalted_scur (s : State) :
    (hashSalted s).scur = (saltedKeySchedule s.ph.toList s.sd.toList s.cipher).cur := by
  rw [hashSalted, scheduleKeySalt_scur, sourceBytes_ph, sourceBytes_sd]
@[simp] theorem hashSalted_cdata (s : State) : (hashSalted s).cdata = s.cdata := rfl
@[simp] theorem hashSalted_ph (s : State) : (hashSalted s).ph = s.ph := rfl
@[simp] theorem hashSalted_sd (s : State) : (hashSalted s).sd = s.sd := rfl
@[simp] theorem hashSalted_tmp (s : State) : (hashSalted s).tmp = s.tmp := rfl
@[simp] theorem hashSalted_acc (s : State) : (hashSalted s).acc = s.acc := rfl
@[simp] theorem hashSalted_blkcnt (s : State) : (hashSalted s).blkcnt = s.blkcnt := rfl
@[simp] theorem hashSalted_blkidx (s : State) : (hashSalted s).blkidx = s.blkidx := rfl
@[simp] theorem hashSalted_rnd (s : State) : (hashSalted s).rnd = s.rnd := rfl
@[simp] theorem hashSalted_status (s : State) : (hashSalted s).status = s.status := rfl
@[simp] theorem hashSalted_rounds (s : State) : (hashSalted s).rounds = s.rounds := rfl
@[simp] theorem hashSalted_outlen (s : State) : (hashSalted s).outlen = s.outlen := rfl
@[simp] theorem hashSalted_pwlen (s : State) : (hashSalted s).pwlen = s.pwlen := rfl
@[simp] theorem hashSalted_saltlen (s : State) : (hashSalted s).saltlen = s.saltlen := rfl
@[simp] theorem hashSalted_pwd (s : State) : (hashSalted s).pwd = s.pwd := rfl
@[simp] theorem hashSalted_salt (s : State) : (hashSalted s).salt = s.salt := rfl
@[simp] theorem hashSalted_out (s : State) : (hashSalted s).out = s.out := rfl
@[simp] theorem hashSalted_stage (s : State) : (hashSalted s).stage = s.stage := rfl
@[simp] theorem hashSalted_digestReq (s : State) : (hashSalted s).digestReq = s.digestReq := rfl
@[simp] theorem hashSalted_opSel (s : State) : (hashSalted s).opSel = s.opSel := rfl
@[simp] theorem hashSalted_ops (s : State) : (hashSalted s).ops = s.ops := rfl
@[simp] theorem hashSalted_res (s : State) : (hashSalted s).res = s.res := rfl
@[simp] theorem hashSalted_script (s : State) : (hashSalted s).script = s.script := rfl
@[simp] theorem hashSalted_rdWord (s : State) : (hashSalted s).rdWord = s.rdWord := rfl
@[simp] theorem hashSalted_rdBytes (s : State) : (hashSalted s).rdBytes = s.rdBytes := rfl
@[simp] theorem hashSalted_freeCtr (s : State) : (hashSalted s).freeCtr = s.freeCtr := rfl

/-! What the first half of step 3 of `BHASH` (R82) does to each field. -/

@[simp] theorem hashExpandSalt_cipher (s : State) : (hashExpandSalt s).cipher = (keySchedule s.sd.toList s.cipher).cipher := by
  rw [hashExpandSalt, scheduleKey_cipher, sourceBytes_sd]
@[simp] theorem hashExpandSalt_rb (s : State) : (hashExpandSalt s).rb = (keySchedule s.sd.toList s.cipher).rb := by
  rw [hashExpandSalt, scheduleKey_rb, sourceBytes_sd]
@[simp] theorem hashExpandSalt_kcur (s : State) : (hashExpandSalt s).kcur = (mixKey s.sd.toList s.cipher).2 := by
  rw [hashExpandSalt, scheduleKey_kcur, sourceBytes_sd]
@[simp] theorem hashExpandSalt_scur (s : State) : (hashExpandSalt s).scur = s.scur := rfl
@[simp] theorem hashExpandSalt_cdata (s : State) : (hashExpandSalt s).cdata = s.cdata := rfl
@[simp] theorem hashExpandSalt_ph (s : State) : (hashExpandSalt s).ph = s.ph := rfl
@[simp] theorem hashExpandSalt_sd (s : State) : (hashExpandSalt s).sd = s.sd := rfl
@[simp] theorem hashExpandSalt_tmp (s : State) : (hashExpandSalt s).tmp = s.tmp := rfl
@[simp] theorem hashExpandSalt_acc (s : State) : (hashExpandSalt s).acc = s.acc := rfl
@[simp] theorem hashExpandSalt_blkcnt (s : State) : (hashExpandSalt s).blkcnt = s.blkcnt := rfl
@[simp] theorem hashExpandSalt_blkidx (s : State) : (hashExpandSalt s).blkidx = s.blkidx := rfl
@[simp] theorem hashExpandSalt_rnd (s : State) : (hashExpandSalt s).rnd = s.rnd := rfl
@[simp] theorem hashExpandSalt_status (s : State) : (hashExpandSalt s).status = s.status := rfl
@[simp] theorem hashExpandSalt_rounds (s : State) : (hashExpandSalt s).rounds = s.rounds := rfl
@[simp] theorem hashExpandSalt_outlen (s : State) : (hashExpandSalt s).outlen = s.outlen := rfl
@[simp] theorem hashExpandSalt_pwlen (s : State) : (hashExpandSalt s).pwlen = s.pwlen := rfl
@[simp] theorem hashExpandSalt_saltlen (s : State) : (hashExpandSalt s).saltlen = s.saltlen := rfl
@[simp] theorem hashExpandSalt_pwd (s : State) : (hashExpandSalt s).pwd = s.pwd := rfl
@[simp] theorem hashExpandSalt_salt (s : State) : (hashExpandSalt s).salt = s.salt := rfl
@[simp] theorem hashExpandSalt_out (s : State) : (hashExpandSalt s).out = s.out := rfl
@[simp] theorem hashExpandSalt_stage (s : State) : (hashExpandSalt s).stage = s.stage := rfl
@[simp] theorem hashExpandSalt_digestReq (s : State) : (hashExpandSalt s).digestReq = s.digestReq := rfl
@[simp] theorem hashExpandSalt_opSel (s : State) : (hashExpandSalt s).opSel = s.opSel := rfl
@[simp] theorem hashExpandSalt_ops (s : State) : (hashExpandSalt s).ops = s.ops := rfl
@[simp] theorem hashExpandSalt_res (s : State) : (hashExpandSalt s).res = s.res := rfl
@[simp] theorem hashExpandSalt_script (s : State) : (hashExpandSalt s).script = s.script := rfl
@[simp] theorem hashExpandSalt_rdWord (s : State) : (hashExpandSalt s).rdWord = s.rdWord := rfl
@[simp] theorem hashExpandSalt_rdBytes (s : State) : (hashExpandSalt s).rdBytes = s.rdBytes := rfl
@[simp] theorem hashExpandSalt_freeCtr (s : State) : (hashExpandSalt s).freeCtr = s.freeCtr := rfl

/-! What the second half of step 3 of `BHASH` (R82) does to each field. -/

@[simp] theorem hashExpandKey_cipher (s : State) : (hashExpandKey s).cipher = (keySchedule s.ph.toList s.cipher).cipher := by
  rw [hashExpandKey, scheduleKey_cipher, sourceBytes_ph]
@[simp] theorem hashExpandKey_rb (s : State) : (hashExpandKey s).rb = (keySchedule s.ph.toList s.cipher).rb := by
  rw [hashExpandKey, scheduleKey_rb, sourceBytes_ph]
@[simp] theorem hashExpandKey_kcur (s : State) : (hashExpandKey s).kcur = (mixKey s.ph.toList s.cipher).2 := by
  rw [hashExpandKey, scheduleKey_kcur, sourceBytes_ph]
@[simp] theorem hashExpandKey_scur (s : State) : (hashExpandKey s).scur = s.scur := rfl
@[simp] theorem hashExpandKey_cdata (s : State) : (hashExpandKey s).cdata = s.cdata := rfl
@[simp] theorem hashExpandKey_ph (s : State) : (hashExpandKey s).ph = s.ph := rfl
@[simp] theorem hashExpandKey_sd (s : State) : (hashExpandKey s).sd = s.sd := rfl
@[simp] theorem hashExpandKey_tmp (s : State) : (hashExpandKey s).tmp = s.tmp := rfl
@[simp] theorem hashExpandKey_acc (s : State) : (hashExpandKey s).acc = s.acc := rfl
@[simp] theorem hashExpandKey_blkcnt (s : State) : (hashExpandKey s).blkcnt = s.blkcnt := rfl
@[simp] theorem hashExpandKey_blkidx (s : State) : (hashExpandKey s).blkidx = s.blkidx := rfl
@[simp] theorem hashExpandKey_rnd (s : State) : (hashExpandKey s).rnd = s.rnd := rfl
@[simp] theorem hashExpandKey_status (s : State) : (hashExpandKey s).status = s.status := rfl
@[simp] theorem hashExpandKey_rounds (s : State) : (hashExpandKey s).rounds = s.rounds := rfl
@[simp] theorem hashExpandKey_outlen (s : State) : (hashExpandKey s).outlen = s.outlen := rfl
@[simp] theorem hashExpandKey_pwlen (s : State) : (hashExpandKey s).pwlen = s.pwlen := rfl
@[simp] theorem hashExpandKey_saltlen (s : State) : (hashExpandKey s).saltlen = s.saltlen := rfl
@[simp] theorem hashExpandKey_pwd (s : State) : (hashExpandKey s).pwd = s.pwd := rfl
@[simp] theorem hashExpandKey_salt (s : State) : (hashExpandKey s).salt = s.salt := rfl
@[simp] theorem hashExpandKey_out (s : State) : (hashExpandKey s).out = s.out := rfl
@[simp] theorem hashExpandKey_stage (s : State) : (hashExpandKey s).stage = s.stage := rfl
@[simp] theorem hashExpandKey_digestReq (s : State) : (hashExpandKey s).digestReq = s.digestReq := rfl
@[simp] theorem hashExpandKey_opSel (s : State) : (hashExpandKey s).opSel = s.opSel := rfl
@[simp] theorem hashExpandKey_ops (s : State) : (hashExpandKey s).ops = s.ops := rfl
@[simp] theorem hashExpandKey_res (s : State) : (hashExpandKey s).res = s.res := rfl
@[simp] theorem hashExpandKey_script (s : State) : (hashExpandKey s).script = s.script := rfl
@[simp] theorem hashExpandKey_rdWord (s : State) : (hashExpandKey s).rdWord = s.rdWord := rfl
@[simp] theorem hashExpandKey_rdBytes (s : State) : (hashExpandKey s).rdBytes = s.rdBytes := rfl
@[simp] theorem hashExpandKey_freeCtr (s : State) : (hashExpandKey s).freeCtr = s.freeCtr := rfl

end Sys2Proof.Machine
end

