-- ==== Sys2Proof/Laws/Ops.lean ====
section
/-! SUPPORT. Laws of the shared operations of Machine/Ops.lean and Machine/Operands.lean: iteration, taking an error, the free bytes,
the validation. -/

namespace Sys2Proof.Machine

/-! Iteration. -/

theorem iter_zero {α : Type} (f : α → α) (a : α) : iter f 0 a = a := by rw [iter]

theorem iter_succ {α : Type} (f : α → α) (n : Nat) (a : α) : iter f (n + 1) a = iter f n (f a) := by rw [iter]

theorem iter_add {α : Type} (f : α → α) (m n : Nat) (a : α) : iter f (m + n) a = iter f n (iter f m a) := by
  induction m generalizing a with
  | zero => rw [Nat.zero_add, iter_zero]
  | succ m ih => rw [Nat.succ_add, iter_succ, iter_succ, ih]

/-- What `f` does not change, no number of applications changes. -/
theorem iter_keeps {α β : Type} {f : α → α} (g : α → β) (h : ∀ a, g (f a) = g a) (n : Nat) (a : α) :
    g (iter f n a) = g a := by
  induction n generalizing a with
  | zero => rw [iter_zero]
  | succ n ih => rw [iter_succ, ih, h]

/-! The free bytes of R107. -/

theorem scrambleOut_wf {s : State} (h : s.out.wf) : (scrambleOut s).out.wf := Memory.writeBytes_wf h _ _

theorem scrambleOut_within {s : State} (h : s.out.within Config.outMax) : (scrambleOut s).out.within Config.outMax :=
  Memory.writeBytes_within h _ (by simp)

theorem scrambleOut_read {s : State} {d : Nat} (h : s.outlen.toNat ≤ d) : (scrambleOut s).out.read d = s.out.read d :=
  Memory.read_writeBytes_outside _ (.inr (by simp; omega))

/-! Taking an error (R106, R107): the state it leaves, and that `OUT` keeps its form, its capacity and its bytes from `OUTLEN` on. -/

theorem raise_invalidArgument (s : State) :
    raise .invalidArgument s = { eraseInternal (abandon s) with status := statusError .invalidArgument } := rfl

theorem raise_violation (s : State) : raise .internalInvariantViolation s =
    scrambleOut { eraseInternal (abandon s) with status := statusError .internalInvariantViolation } := rfl

theorem raise_out_wf (k : ErrorKind) {s : State} (h : s.out.wf) : (raise k s).out.wf := by
  cases k with
  | invalidArgument => exact h
  | internalInvariantViolation => rw [raise_violation]; exact scrambleOut_wf h

theorem raise_out_within (k : ErrorKind) {s : State} (h : s.out.within Config.outMax) :
    (raise k s).out.within Config.outMax := by
  cases k with
  | invalidArgument => exact h
  | internalInvariantViolation => rw [raise_violation]; exact scrambleOut_within h

theorem raise_out_read (k : ErrorKind) {s : State} {d : Nat} (h : s.outlen.toNat ≤ d) : (raise k s).out.read d = s.out.read d := by
  cases k with
  | invalidArgument => rfl
  | internalInvariantViolation => rw [raise_violation]; exact scrambleOut_read h

/-- The validation passes exactly on the operands R88 lets through. -/
theorem operandsRefused_eq_false {s : State} : operandsRefused s = false ↔
    (1 ≤ s.pwlen.toNat ∧ s.pwlen.toNat ≤ Config.pwMax) ∧ (1 ≤ s.saltlen.toNat ∧ s.saltlen.toNat ≤ Config.saltMax) ∧
      1 ≤ s.rounds.toNat ∧ 1 ≤ s.outlen.toNat ∧ s.outlen.toNat ≤ Config.outMax := by
  simp only [operandsRefused, Bool.or_eq_false_iff, decide_eq_false_iff_not]
  omega

end Sys2Proof.Machine
end

