-- ==== Sys2Proof/Laws/Cipher.lean ====
section
/-! SUPPORT. Laws of unit `core` (`spec/40_cipher_core.md`) and of folds over a fixed number of steps. -/

namespace Sys2Proof.Machine

/-- What holds at the start of a loop over `0 .. n-1` and is kept by each of its steps holds at its end. -/
theorem foldl_finRange_inv {α : Type} {n : Nat} (f : α → Fin n → α) (Q : Nat → α → Prop) (a : α) (h0 : Q 0 a)
    (hs : ∀ (i : Fin n) (x : α), Q i x → Q (i + 1) (f x i)) : Q n ((List.finRange n).foldl f a) := by
  have key : ∀ k, k ≤ n → Q k (((List.finRange n).take k).foldl f a) := by
    intro k
    induction k with
    | zero => intro _; simpa using h0
    | succ k ih =>
      intro hk
      have hk' : k < (List.finRange n).length := by simpa using hk
      rw [List.take_succ_eq_append_getElem hk', List.foldl_append]
      simpa using hs ⟨k, hk⟩ _ (ih (by omega))
  have := key n le_rfl
  rwa [List.take_of_length_le (by simp)] at this

/-- `ENCB` as its sixteen rounds (R72). -/
theorem encryptBlock_eq (c : CipherState) (x : Block) : encryptBlock c x =
    let h := (List.finRange 16).foldl (feistelRound c) ⟨x.L ^^^ c.P[0], x.R⟩
    ⟨h.R ^^^ c.P[17], h.L⟩ := by rw [encryptBlock]

theorem encryptWordsChecked_even {c : CipherState} {ws : List Word} (h : ws.length % 2 = 0) :
    encryptWordsChecked c ws = some (encryptWords c ws) := if_pos h

theorem encryptWordsChecked_odd {c : CipherState} {ws : List Word} (h : ws.length % 2 = 1) :
    encryptWordsChecked c ws = none := if_neg (by omega)

theorem encryptEight_toList (c : CipherState) (w : Vector Word 8) : (encryptEight c w).toList = encryptWords c w.toList := by
  simp [encryptEight, Vector.toList]

end Sys2Proof.Machine
end

