-- ==== Sys2Proof/Laws/Schedule.lean ====
section
/-! SUPPORT. Laws of unit `ksched` (`spec/41_key_schedule.md`): circular extraction, the slots of a schedule, and its course. -/

namespace Sys2Proof.Machine

/-! Circular extraction (R76). -/

theorem wrapCursor_lt {L k : Nat} (h : k < L) : wrapCursor L k = k := if_neg (by omega)

/-- The cursor behind place `k` wraps to place `k + 1`. -/
theorem wrapCursor_succ_mod {L : Nat} (h : 0 < L) (k : Nat) : wrapCursor L (k % L + 1) = (k + 1) % L := by
  have hk := Nat.mod_lt k h
  rw [← Nat.mod_add_mod]
  unfold wrapCursor
  split
  · rw [show k % L + 1 = L by omega, Nat.mod_self]
  · exact (Nat.mod_eq_of_lt (by omega)).symm

/-- `XWORD` from a cursor that wraps to place `k` of the circular reading. -/
theorem extractWord_from {B : List Byte} {cur k : Nat} (hB : 0 < B.length)
    (hc : wrapCursor B.length cur = k % B.length) : extractWord B cur = (circularWord B k, (k + 3) % B.length + 1) := by
  simp only [extractWord, iter, extractByte, hc, wrapCursor_succ_mod hB]
  rfl

/-- The first word of a source. -/
theorem extractWord_start {B : List Byte} (hB : 0 < B.length) : extractWord B 0 = (circularWord B 0, 3 % B.length + 1) := by
  have := extractWord_from (cur := 0) (k := 0) hB (by simp [wrapCursor])
  simpa using this

/-- The next word, from the cursor the word before left. -/
theorem extractWord_next {B : List Byte} (hB : 0 < B.length) (k : Nat) :
    extractWord B (k % B.length + 1) = (circularWord B (k + 1), (k + 4) % B.length + 1) :=
  extractWord_from hB (wrapCursor_succ_mod hB k)

/-! The slots of a schedule (R77). -/

theorem scheduleSlots_length : scheduleSlots.length = 521 := by decide +kernel
theorem scheduleSlots_last : scheduleSlots[520]? = some (.s 3 127) := by decide +kernel

/-- The place of a slot in the order of a schedule. -/
def slotNumber : Slot → Nat
  | .p i => i.val
  | .s t q => 9 + 128 * t.val + q.val
theorem scheduleSlots_map : scheduleSlots.map slotNumber = List.range 521 := by decide +kernel

theorem scheduleSlots_nodup : scheduleSlots.Nodup :=
  List.Nodup.of_map slotNumber (by rw [scheduleSlots_map]; exact List.nodup_range)

/-- Reading a slot after storing one. -/
theorem readSlot_storeSlot (c : CipherState) (x : Block) (a b : Slot) :
    readSlot (storeSlot c x a) b = if a = b then x else readSlot c b := by
  cases a with
  | p i => cases b with
    | p j =>
      by_cases h : i = j
      · subst h; simp [readSlot, storeSlot]
      · have : i.val ≠ j.val := fun e => h (Fin.ext e)
        simp [readSlot, storeSlot, h, Vector.getElem_set]
        constructor
        · rw [if_neg (by omega), if_neg (by omega)]
        · rw [if_neg (by omega), if_neg (by omega)]
    | s t q => simp [readSlot, storeSlot]
  | s t q => cases b with
    | p j => simp [readSlot, storeSlot]
    | s u r =>
      by_cases ht : t = u
      · subst ht
        by_cases h : q = r
        · subst h; simp [readSlot, storeSlot]
        · have : q.val ≠ r.val := fun e => h (Fin.ext e)
          simp [readSlot, storeSlot, h, Vector.getElem_set]
          constructor
          · rw [if_neg (by omega), if_neg (by omega)]
          · rw [if_neg (by omega), if_neg (by omega)]
      · have : t.val ≠ u.val := fun e => ht (Fin.ext e)
        simp [readSlot, storeSlot, ht, this]

/-! The course of a schedule (R79). -/

theorem scheduleCourse_zero (inj : Sched → Sched) (c : CipherState) (cur : Nat) :
    scheduleCourse inj c cur 0 = ⟨c, ⟨0, 0⟩, cur⟩ := rfl

/-- One pair more. -/
theorem scheduleCourse_succ (inj : Sched → Sched) (c : CipherState) (cur : Nat) {j : Nat} {slot : Slot}
    (h : scheduleSlots[j]? = some slot) :
    scheduleCourse inj c cur (j+1) = pairStep inj (scheduleCourse inj c cur j) slot := by
  obtain ⟨hj, rfl⟩ := List.getElem?_eq_some_iff.1 h
  simp only [scheduleCourse, List.take_succ_eq_append_getElem hj, List.foldl_append, List.foldl]

/-- All 521 pairs. -/
theorem scheduleCourse_end (inj : Sched → Sched) (c : CipherState) (cur : Nat) :
    scheduleCourse inj c cur 521 = rederive inj c cur := by
  unfold scheduleCourse rederive
  rw [List.take_of_length_le (by rw [scheduleSlots_length])]

/-- A slot whose turn has not come holds its old words. -/
theorem scheduleCourse_read_ge {inj : Sched → Sched} {c : CipherState} {cur : Nat}
    (hi : ∀ x, (inj x).cipher = x.cipher) {i : Nat} {slot : Slot} (h : scheduleSlots[i]? = some slot) :
    ∀ j, j ≤ i → readSlot (scheduleCourse inj c cur j).cipher slot = readSlot c slot := by
  intro j
  induction j with
  | zero => intro _; rfl
  | succ j ih =>
    intro hj
    have hj' : j < scheduleSlots.length := by
      have := (List.getElem?_eq_some_iff.1 h).1; omega
    have hs := List.getElem?_eq_getElem hj'
    rw [scheduleCourse_succ _ _ _ hs]
    simp only [pairStep, readSlot_storeSlot]
    rw [if_neg, hi, ih (by omega)]
    intro e
    obtain ⟨hil, e2⟩ := List.getElem?_eq_some_iff.1 h
    rw [← e2] at e
    have := (List.Nodup.getElem_inj_iff scheduleSlots_nodup).1 e
    omega

/-- A slot that has been stored keeps its words. -/
theorem scheduleCourse_read_stable {inj : Sched → Sched} {c : CipherState} {cur : Nat}
    (hi : ∀ x, (inj x).cipher = x.cipher) {i : Nat} {slot : Slot} (h : scheduleSlots[i]? = some slot) :
    ∀ k, i + 1 + k ≤ 521 → readSlot (scheduleCourse inj c cur (i + 1 + k)).cipher slot =
      readSlot (scheduleCourse inj c cur (i+1)).cipher slot := by
  intro k
  induction k with
  | zero => intro _; rfl
  | succ k ih =>
    intro hk
    have hj' : i + 1 + k < scheduleSlots.length := by rw [scheduleSlots_length]; omega
    rw [show i + 1 + (k + 1) = (i + 1 + k) + 1 by ring, scheduleCourse_succ _ _ _ (List.getElem?_eq_getElem hj')]
    simp only [pairStep, readSlot_storeSlot]
    rw [if_neg, hi, ih (by omega)]
    intro e
    obtain ⟨hil, e2⟩ := List.getElem?_eq_some_iff.1 h
    rw [← e2] at e
    have := (List.Nodup.getElem_inj_iff scheduleSlots_nodup).1 e
    omega

/-- Injecting salt words leaves the tables alone. -/
theorem injectSalt_cipher (Sa : List Byte) (x : Sched) : (injectSalt Sa x).cipher = x.cipher := rfl

/-- The pair just stored is the running block. -/
theorem scheduleCourse_rb (inj : Sched → Sched) (c : CipherState) (cur : Nat) {j : Nat} {slot : Slot}
    (h : scheduleSlots[j]? = some slot) :
    readSlot (scheduleCourse inj c cur (j + 1)).cipher slot = (scheduleCourse inj c cur (j + 1)).rb := by
  rw [scheduleCourse_succ _ _ _ h]
  simp [pairStep, readSlot_storeSlot]

/-- The salt cursor behind pair `m`: one continuous circular reading from cursor 0 (R78). -/
theorem scheduleCourse_saltCursor {Sa : List Byte} (hS : 0 < Sa.length) (c : CipherState) :
    ∀ m, m < 521 → (scheduleCourse (injectSalt Sa) c 0 (m + 1)).cur = (8 * m + 7) % Sa.length + 1 := by
  intro m
  induction m with
  | zero =>
    intro _
    rw [scheduleCourse_succ _ _ _ (List.getElem?_eq_getElem (by rw [scheduleSlots_length]; omega))]
    simp only [pairStep, injectSalt, scheduleCourse_zero, extractWord_start hS, extractWord_next hS]
  | succ m ih =>
    intro h
    rw [scheduleCourse_succ _ _ _ (List.getElem?_eq_getElem (by rw [scheduleSlots_length]; omega))]
    simp only [pairStep, injectSalt, ih (by omega), extractWord_next hS]
    ring_nf

end Sys2Proof.Machine
end

