-- ==== Sys2Proof/Laws/Hash.lean ====
section
/-! SUPPORT. What `BHASH` (`spec/42_hash_engine.md` R82) leaves alone. -/

namespace Sys2Proof.Machine

/-- Whatever does not depend on the eight pieces of state that `BHASH` writes is the same before and after it. -/
theorem hashEngine_keeps {β : Type} (g : State → β)
    (h : ∀ (s : State) (c : CipherState) (rb : Block) (k sc : Nat) (w : Vector Word 8) (t : Vector Byte 32),
      g { s with cipher := c, rb := rb, kcur := k, scur := sc, cdata := w, tmp := t } = g s) (s : State) :
    g (hashEngine s) = g s := by
  have h1 : ∀ s : State, g (hashExpandKey (hashExpandSalt s)) = g s := fun s => h s _ _ _ _ _ _
  have h2 : ∀ s : State, g (hashEncrypt s) = g s := fun s => h s _ _ _ _ _ _
  have h3 : ∀ s : State, g (hashLoad s) = g s := fun s => h s _ _ _ _ _ _
  have h4 : ∀ s : State, g (hashEncode s) = g s := fun s => h s _ _ _ _ _ _
  have h5 : ∀ s : State, g (hashSalted (initCipher s)) = g s := fun s => h s _ _ _ _ _ _
  rw [hashEngine]
  exact ((h4 _).trans ((iter_keeps g h2 _ _).trans ((h3 _).trans ((iter_keeps g h1 _ _).trans (h5 s)))))

@[simp] theorem hashEngine_stage (s : State) : (hashEngine s).stage = s.stage :=
  hashEngine_keeps State.stage (fun _ _ _ _ _ _ _ => rfl) s
@[simp] theorem hashEngine_blkcnt (s : State) : (hashEngine s).blkcnt = s.blkcnt :=
  hashEngine_keeps State.blkcnt (fun _ _ _ _ _ _ _ => rfl) s
@[simp] theorem hashEngine_blkidx (s : State) : (hashEngine s).blkidx = s.blkidx :=
  hashEngine_keeps State.blkidx (fun _ _ _ _ _ _ _ => rfl) s
@[simp] theorem hashEngine_rnd (s : State) : (hashEngine s).rnd = s.rnd :=
  hashEngine_keeps State.rnd (fun _ _ _ _ _ _ _ => rfl) s
@[simp] theorem hashEngine_status (s : State) : (hashEngine s).status = s.status :=
  hashEngine_keeps State.status (fun _ _ _ _ _ _ _ => rfl) s
@[simp] theorem hashEngine_rounds (s : State) : (hashEngine s).rounds = s.rounds :=
  hashEngine_keeps State.rounds (fun _ _ _ _ _ _ _ => rfl) s
@[simp] theorem hashEngine_outlen (s : State) : (hashEngine s).outlen = s.outlen :=
  hashEngine_keeps State.outlen (fun _ _ _ _ _ _ _ => rfl) s
@[simp] theorem hashEngine_pwlen (s : State) : (hashEngine s).pwlen = s.pwlen :=
  hashEngine_keeps State.pwlen (fun _ _ _ _ _ _ _ => rfl) s
@[simp] theorem hashEngine_saltlen (s : State) : (hashEngine s).saltlen = s.saltlen :=
  hashEngine_keeps State.saltlen (fun _ _ _ _ _ _ _ => rfl) s
@[simp] theorem hashEngine_digestReq (s : State) : (hashEngine s).digestReq = s.digestReq :=
  hashEngine_keeps State.digestReq (fun _ _ _ _ _ _ _ => rfl) s
@[simp] theorem hashEngine_opSel (s : State) : (hashEngine s).opSel = s.opSel :=
  hashEngine_keeps State.opSel (fun _ _ _ _ _ _ _ => rfl) s
@[simp] theorem hashEngine_script (s : State) : (hashEngine s).script = s.script :=
  hashEngine_keeps State.script (fun _ _ _ _ _ _ _ => rfl) s
@[simp] theorem hashEngine_rdWord (s : State) : (hashEngine s).rdWord = s.rdWord :=
  hashEngine_keeps State.rdWord (fun _ _ _ _ _ _ _ => rfl) s
@[simp] theorem hashEngine_rdBytes (s : State) : (hashEngine s).rdBytes = s.rdBytes :=
  hashEngine_keeps State.rdBytes (fun _ _ _ _ _ _ _ => rfl) s
@[simp] theorem hashEngine_freeCtr (s : State) : (hashEngine s).freeCtr = s.freeCtr :=
  hashEngine_keeps State.freeCtr (fun _ _ _ _ _ _ _ => rfl) s
@[simp] theorem hashEngine_ops (s : State) : (hashEngine s).ops = s.ops :=
  hashEngine_keeps State.ops (fun _ _ _ _ _ _ _ => rfl) s
@[simp] theorem hashEngine_res (s : State) : (hashEngine s).res = s.res :=
  hashEngine_keeps State.res (fun _ _ _ _ _ _ _ => rfl) s
@[simp] theorem hashEngine_pwd (s : State) : (hashEngine s).pwd = s.pwd :=
  hashEngine_keeps State.pwd (fun _ _ _ _ _ _ _ => rfl) s
@[simp] theorem hashEngine_salt (s : State) : (hashEngine s).salt = s.salt :=
  hashEngine_keeps State.salt (fun _ _ _ _ _ _ _ => rfl) s
@[simp] theorem hashEngine_out (s : State) : (hashEngine s).out = s.out :=
  hashEngine_keeps State.out (fun _ _ _ _ _ _ _ => rfl) s
@[simp] theorem hashEngine_ph (s : State) : (hashEngine s).ph = s.ph :=
  hashEngine_keeps State.ph (fun _ _ _ _ _ _ _ => rfl) s
@[simp] theorem hashEngine_sd (s : State) : (hashEngine s).sd = s.sd :=
  hashEngine_keeps State.sd (fun _ _ _ _ _ _ _ => rfl) s
@[simp] theorem hashEngine_acc (s : State) : (hashEngine s).acc = s.acc :=
  hashEngine_keeps State.acc (fun _ _ _ _ _ _ _ => rfl) s

end Sys2Proof.Machine
end

