-- ==== Sys2Proof/Laws/Driver.lean ====
section
/-! SUPPORT. Laws of unit `pbkdf` (`spec/43_pbkdf_driver.md`): the scatter as a loop over memory writes, and what the loops of
`DERIVE` leave alone. -/

namespace Sys2Proof.Machine

/-! The scatter (R94). -/

theorem scatteredOut_eq (s : State) : scatteredOut s = (List.finRange 32).foldl (scatterByte s) s.out := by rw [scatteredOut]

/-- One write of the scatter, at any index. -/
theorem scatterByte_read {s : State} {out : Memory} (h : out.wf) (i : Fin 32) (d : Nat) : (scatterByte s out i).read d =
    if d = i.val * s.blkcnt + s.blkidx ∧ d < s.outlen.toNat then s.acc[i] else out.read d := by
  simp only [scatterByte]
  split
  · rw [Memory.read_write h]
    split
    · rw [if_pos ⟨‹_›, by omega⟩]
    · rw [if_neg fun e => ‹¬ d = _› e.1]
  · rw [if_neg]; rintro ⟨rfl, e⟩; contradiction

theorem scatterByte_wf {s : State} {out : Memory} (h : out.wf) (i : Fin 32) : (scatterByte s out i).wf := by
  simp only [scatterByte]; split
  · exact Memory.write_wf h _ _
  · exact h

/-- The scatter keeps the canonical form. -/
theorem scatteredOut_wf {s : State} (h : s.out.wf) : (scatteredOut s).wf := by
  rw [scatteredOut_eq]
  exact foldl_finRange_inv (scatterByte s) (fun _ m => m.wf) s.out h fun i _ hm => scatterByte_wf hm i

/-- The scatter stays inside the capacity when the output length does. -/
theorem scatteredOut_within {s : State} (h : s.out.within Config.outMax) (ho : s.outlen.toNat ≤ Config.outMax) :
    (scatteredOut s).within Config.outMax := by
  rw [scatteredOut_eq]
  refine foldl_finRange_inv (scatterByte s) (fun _ m => m.within Config.outMax) s.out h fun i m hm => ?_
  simp only [scatterByte]; split
  · exact Memory.write_within hm (by omega) _
  · exact hm

/-- The scatter leaves every index from `OUTLEN` on alone. -/
theorem scatteredOut_read {s : State} {d : Nat} (hd : s.outlen.toNat ≤ d) : (scatteredOut s).read d = s.out.read d := by
  rw [scatteredOut_eq]
  refine foldl_finRange_inv (scatterByte s) (fun _ m => m.read d = s.out.read d) s.out rfl fun i m hm => ?_
  simp only [scatterByte]; split
  · rw [Memory.read_write_other _ (by omega), hm]
  · exact hm

/-! The loops (R87, R93). -/

theorem stretchRounds_zero (r : Nat) (s : State) : stretchRounds 0 r s = s := rfl

theorem stretchRounds_succ (n r : Nat) (s : State) :
    stretchRounds (n + 1) r s = stretchRounds n (r + 1) (stretchRound { s with rnd := r }) := by rw [stretchRounds]

theorem deriveBlocks_zero (b : Nat) (s : State) : deriveBlocks 0 b s = s := rfl

theorem deriveBlocks_succ (n b : Nat) (s : State) :
    deriveBlocks (n + 1) b s = deriveBlocks n (b + 1) (deriveBlock { s with blkidx := b }) := by rw [deriveBlocks]

/-- Whatever does not depend on the pieces of state that a round writes is the same before and after one. -/
theorem stretchRound_keeps {β : Type} (g : State → β)
    (h : ∀ (s : State) (c : CipherState) (rb : Block) (k sc : Nat) (w : Vector Word 8) (t a : Vector Byte 32)
      (sd : Vector Byte 64),
      g { s with cipher := c, rb := rb, kcur := k, scur := sc, cdata := w, tmp := t, acc := a, sd := sd } = g s) (s : State) : g (stretchRound s) = g s := by
  have h1 : ∀ s : State, g (xorAcc s) = g s := fun s => h s _ _ _ _ _ _ _ _
  have h2 : ∀ (m : List Byte) (s : State), g (storeSaltDigest m s) = g s := fun m s => h s _ _ _ _ _ _ _ _
  rw [stretchRound]
  exact (h1 _).trans ((hashEngine_keeps g (fun s c rb k sc w t => h s c rb k sc w t s.acc s.sd) _).trans (h2 _ s))

/-- The same for the stretching loop, which also counts in `RND`. -/
theorem stretchRounds_keeps {β : Type} (g : State → β)
    (h : ∀ (s : State) (c : CipherState) (rb : Block) (k sc : Nat) (w : Vector Word 8) (t a : Vector Byte 32)
      (sd : Vector Byte 64),
      g { s with cipher := c, rb := rb, kcur := k, scur := sc, cdata := w, tmp := t, acc := a, sd := sd } = g s) (hr : ∀ (s : State) (r : Nat), g { s with rnd := r } = g s) (n r : Nat) (s : State) :
    g (stretchRounds n r s) = g s := by
  induction n generalizing r s with
  | zero => rfl
  | succ n ih => rw [stretchRounds_succ, ih, stretchRound_keeps g h, hr]

/-- The same for one block, which also writes `OUT`. -/
theorem deriveBlock_keeps {β : Type} (g : State → β)
    (h : ∀ (s : State) (c : CipherState) (rb : Block) (k sc : Nat) (w : Vector Word 8) (t a : Vector Byte 32)
      (sd : Vector Byte 64),
      g { s with cipher := c, rb := rb, kcur := k, scur := sc, cdata := w, tmp := t, acc := a, sd := sd } = g s) (hr : ∀ (s : State) (r : Nat), g { s with rnd := r } = g s)
    (ho : ∀ (s : State) (m : Memory), g { s with out := m } = g s) (s : State) : g (deriveBlock s) = g s := by
  have h1 : ∀ s : State, g (assignAcc s) = g s := fun s => h s _ _ _ _ _ _ _ _
  have h2 : ∀ (m : List Byte) (s : State), g (storeSaltDigest m s) = g s := fun m s => h s _ _ _ _ _ _ _ _
  have h3 : ∀ s : State, g (scatterAcc s) = g s := fun s => ho s _
  rw [deriveBlock]
  exact (h3 _).trans ((stretchRounds_keeps g h hr _ _ _).trans ((h1 _).trans
    ((hashEngine_keeps g (fun s c rb k sc w t => h s c rb k sc w t s.acc s.sd) _).trans (h2 _ s))))

/-- The same for the block loop, which also counts in `BLKIDX`. -/
theorem deriveBlocks_keeps {β : Type} (g : State → β)
    (h : ∀ (s : State) (c : CipherState) (rb : Block) (k sc : Nat) (w : Vector Word 8) (t a : Vector Byte 32)
      (sd : Vector Byte 64),
      g { s with cipher := c, rb := rb, kcur := k, scur := sc, cdata := w, tmp := t, acc := a, sd := sd } = g s) (hr : ∀ (s : State) (r : Nat), g { s with rnd := r } = g s)
    (ho : ∀ (s : State) (m : Memory), g { s with out := m } = g s)
    (hb : ∀ (s : State) (b : Nat), g { s with blkidx := b } = g s) (n b : Nat) (s : State) :
    g (deriveBlocks n b s) = g s := by
  induction n generalizing b s with
  | zero => rfl
  | succ n ih => rw [deriveBlocks_succ, ih, deriveBlock_keeps g h hr ho, hb]

end Sys2Proof.Machine
end

