-- ==== Sys2Proof/Laws/PerInstr.lean ====
section
/-! SUPPORT. A statement about every operation as syntax, proved one operation at a time: encoding and decoding agree (R59, R60). -/

namespace Sys2Proof.Laws.RoundTrip

/-- The operation is well-formed, its command word is not reserved, and decoding its bytes gives it back with what follows. -/
def Statement (i : Instr) : Prop :=
  i.wf = true ∧ commandWordWf (encodeWord i) = true ∧ ∀ rest, decode (encode i ++ rest) = .ok (i, rest)

theorem init : Statement .init := ⟨rfl, by decide, fun _ => rfl⟩
theorem encb : Statement .encb := ⟨rfl, by decide, fun _ => rfl⟩
theorem encw : Statement .encw := ⟨rfl, by decide, fun _ => rfl⟩
theorem xword : Statement .xword := ⟨rfl, by decide, fun _ => rfl⟩
theorem skey : Statement .skey := ⟨rfl, by decide, fun _ => rfl⟩
theorem skeysalt : Statement .skeysalt := ⟨rfl, by decide, fun _ => rfl⟩
theorem bhash : Statement .bhash := ⟨rfl, by decide, fun _ => rfl⟩
theorem derive : Statement .derive := ⟨rfl, by decide, fun _ => rfl⟩
theorem zero : Statement .zero := ⟨rfl, by decide, fun _ => rfl⟩
theorem sha512 : Statement .sha512 := ⟨rfl, by decide, fun _ => rfl⟩

end Sys2Proof.Laws.RoundTrip
end

