-- ==== Sys2Proof/Laws/Step.lean ====
section
/-! SUPPORT. Everything a step can do, said once (`step_cases`), and how runs unfold. -/

namespace Sys2Proof.Machine

/-- A presented operation is taken off the lines and run. -/
theorem step_presented {s : State} {w : BitVec 8} {i : Instr} (h : s.opSel = some w) (hd : decodeWord w = .ok i) :
    step s = exec i (takePresented s) := by
  simp only [step, h, presentedInstr, decode, hd]

/-- Nothing presented and a silent host: the sequencer moves. -/
theorem step_silent {s : State} (h : s.opSel = none) (hs : s.script = []) : step s = .next (advance s) := by
  simp only [step, h, hostMove, hs]

/-- Nothing presented: the host's next line, unless it is a wait. -/
theorem step_line {s : State} {a : HostAction} {rest : List HostAction} (h : s.opSel = none) (hs : s.script = a :: rest)
    (ha : a ≠ .wait) : step s = hostAction a { s with script := rest } := by
  cases a <;> simp_all [step, hostMove]

/-- Everything a step that answers a next state can have done. -/
theorem step_cases {s t : State} (h : step s = .next t) :
    (∃ w i, s.opSel = some w ∧ decodeWord w = .ok i ∧ exec i (takePresented s) = .next t) ∨
    (s.opSel = none ∧ s.script = [] ∧ t = advance s) ∨
    (∃ rest, s.opSel = none ∧ s.script = .wait :: rest ∧ s.done = false ∧ t = advance { s with rdWord := s.status }) ∨
    (∃ a rest, s.opSel = none ∧ s.script = a :: rest ∧ (a = .wait → s.done = true) ∧
      hostAction a { s with script := rest } = .next t) := by
  cases ho : s.opSel with
  | some w =>
    cases hd : decodeWord w with
    | ok i => rw [step_presented ho hd] at h; exact .inl ⟨w, i, rfl, hd, h⟩
    | error e => simp [step, ho, presentedInstr, decode, hd] at h
  | none =>
    cases hs : s.script with
    | nil => rw [step_silent ho hs] at h; cases h; exact .inr (.inl ⟨rfl, rfl, rfl⟩)
    | cons a rest =>
      by_cases ha : a = .wait
      · subst ha
        cases hd : s.done with
        | true =>
          simp only [step, ho, hostMove, hs, hd, if_true] at h
          exact .inr (.inr (.inr ⟨_, rest, rfl, rfl, fun _ => rfl, h⟩))
        | false =>
          simp only [step, ho, hostMove, hs, hd] at h
          cases h
          exact .inr (.inr (.inl ⟨rest, rfl, rfl, rfl, rfl⟩))
      · rw [step_line ho hs ha, ho] at h
        exact .inr (.inr (.inr ⟨a, rest, rfl, rfl, fun e => absurd e ha, h⟩))

/-! Runs. -/

theorem core_run_next (M : Host.Core) {s t : M.State} (k : Nat) (h : M.step s = .next t) : M.run (k + 1) s = M.run k t := by
  simp only [Host.Core.run, h]

theorem core_run_fault (M : Host.Core) {s : M.State} {r : M.Fault} (k : Nat) (h : M.step s = .fault r) :
    M.run (k + 1) s = .fault r := by
  simp only [Host.Core.run, h]

theorem core_run_refused (M : Host.Core) {s : M.State} {r : M.Refusal} (k : Nat) (h : M.step s = .refused r) :
    M.run (k + 1) s = .refused r := by
  simp only [Host.Core.run, h]

theorem run_zero (s : State) : run 0 s = .next s := rfl

theorem run_next {s t : State} (k : Nat) (h : step s = .next t) : run (k + 1) s = run k t :=
  core_run_next Sys2Proof.core k h

theorem run_fault {s : State} {r : Fault} (k : Nat) (h : step s = .fault r) : run (k + 1) s = .fault r :=
  core_run_fault Sys2Proof.core k h

theorem run_refused {s : State} {r : Refusal} (k : Nat) (h : step s = .refused r) : run (k + 1) s = .refused r :=
  core_run_refused Sys2Proof.core k h

end Sys2Proof.Machine
end

