-- ==== Sys2Proof/Tests/Slice0.lean ====
section
/-! SUPPORT. Tests. Expected values come from `spec/`: the encodings of `30_encoding.md` R59 and R60, the table checks of
`10_state.md` R38, and the vectors of `95_test_vectors.md`. Then one witness for each statement with hypotheses. -/

namespace Sys2Proof.Tests

open Sys2Proof Sys2Proof.Machine

/-- The next state of an outcome, or the state after reset where there is none. -/
def nextOf : Host.Outcome State Fault Refusal → State
  | .next t => t
  | _ => State.reset

/-- Reset, then `INIT`. -/
def initState : State := { State.reset with cipher := initialCipher }

/-- A state after `INIT` with operand values on the unit interface. -/
def withOperands (o : Operands) : State := { initState with ops := o }

/-! ### Decoding: the words of R60 written out bit by bit -/

theorem test_decode_init : decode [0b00000001] = .ok (.init, []) := by decide
theorem test_decode_encb : decode [0b00000010] = .ok (.encb, []) := by decide
theorem test_decode_encw : decode [0b00000011] = .ok (.encw, []) := by decide
theorem test_decode_xword : decode [0b00000100] = .ok (.xword, []) := by decide
theorem test_decode_skey : decode [0b00000101] = .ok (.skey, []) := by decide
theorem test_decode_skeysalt : decode [0b00000110] = .ok (.skeysalt, []) := by decide
theorem test_decode_bhash : decode [0b00000111] = .ok (.bhash, []) := by decide
theorem test_decode_derive : decode [0b00001000] = .ok (.derive, []) := by decide
theorem test_decode_zero : decode [0b00001001] = .ok (.zero, []) := by decide
theorem test_decode_sha512 : decode [0b00001010] = .ok (.sha512, []) := by decide
theorem test_decode_reserved_zero : decode [0x00] = .error (.reservedOp 0x0) := by decide
theorem test_decode_reserved_b : decode [0x0B] = .error (.reservedOp 0xB) := by decide
theorem test_decode_reserved_f : decode [0x0F] = .error (.reservedOp 0xF) := by decide
theorem test_decode_zero_field : decode [0x18] = .error (.zeroFieldSet 0x18) := by decide
theorem test_decode_no_byte : decode [] = .error .noByte := by decide
theorem test_table_word : decodeTableWord 8 0x08 = some .derive := by decide
theorem test_table_word_high_bits : decodeTableWord 8 0x18 = none := by decide

/-! ### Well-formedness: an ill-formed term for each check, refused -/

theorem test_wf_zero_field : zeroFieldClear 0x18 = false := by decide
theorem test_wf_op_zero : opAssigned 0x00 = false := by decide
theorem test_wf_op_b : opAssigned 0x0B = false := by decide
theorem test_wf_command_word : commandWordWf 0x88 = false := by decide
theorem test_wf_host_takes_derive_only : Instr.acceptedFromHost .bhash = false ∧ Instr.acceptedFromHost .derive = true := by
  decide
theorem test_wf_empty_source : ByteSource.wf (.given []) = false := by decide
theorem test_wf_encw_odd : operandsWf .encw { Operands.quiet with words := [0, 0, 0] } = false := by decide
theorem test_wf_xword_empty : operandsWf .xword { Operands.quiet with key := .given [] } = false := by decide
theorem test_wf_skeysalt_empty : operandsWf .skeysalt { Operands.quiet with salt := .given [] } = false := by decide
theorem test_wf_operands_good : operandsWf .skeysalt Operands.quiet = true := by decide

/-! ### The tables: the checks of R38 -/

/-- XOR of all words. -/
def xorWords (ws : List Word) : Word := ws.foldl (· ^^^ ·) 0

/-- Sum modulo `2^32` of all words. -/
def sumWords (ws : List Word) : Word := ws.foldl (· + ·) 0

theorem test_p_table : xorWords pInit.toList = 0xB73AD7EA ∧ sumWords pInit.toList = 0x8E4D14CC := by decide +kernel
theorem test_s_table_0 : xorWords sInit[0].toList = 0x4EB4DB7F ∧ sumWords sInit[0].toList = 0x4B745115 := by decide +kernel
theorem test_s_table_1 : xorWords sInit[1].toList = 0xC727E122 ∧ sumWords sInit[1].toList = 0x72FF37B2 := by decide +kernel
theorem test_s_table_2 : xorWords sInit[2].toList = 0x462A5D01 ∧ sumWords sInit[2].toList = 0x2AC02B91 := by decide +kernel
theorem test_s_table_3 : xorWords sInit[3].toList = 0x1779E2BC ∧ sumWords sInit[3].toList = 0xF43E3A88 := by decide +kernel

/-! ### Byte order (R12) and the flags (R27) -/

theorem test_be32 : be32 0x01020304 = [0x01, 0x02, 0x03, 0x04] := by decide
theorem test_le32 : le32 0x01020304 = [0x04, 0x03, 0x02, 0x01] := by decide
theorem test_be_word : beWord [0xFF, 0x01, 0x02, 0x03, 0x04] 1 = 0x01020304 := by decide
theorem test_status_values : statusBusy = 0x1 ∧ statusDone = 0x2 ∧ statusError .invalidArgument = 0x6 ∧
    statusError .internalInvariantViolation = 0xA := by decide
theorem test_status_fields : busyFlag 0x1 = true ∧ doneFlag 0xA = true ∧ busyFlag 0xA = false ∧ errField 0xA = 2 := by decide

/-! ### Unit core (95_test_vectors.md sections 3.1 to 3.3) -/

theorem test_f_zero : roundFunction initialCipher 0x00000000 = 0x2FCFF51E := by decide +kernel
theorem test_f_four_indices : roundFunction initialCipher 0x01234567 = 0xF36E574C := by decide +kernel
theorem test_encb_vector :
    (nextOf (exec .encb (withOperands { Operands.quiet with left := 0x01234567, right := 0x89ABCDEF }))).res.left =
      0x738E078D := by decide +kernel
theorem test_encb_vector_right :
    (nextOf (exec .encb (withOperands { Operands.quiet with left := 0, right := 1 }))).res.right = 0xC197AC40 := by
  decide +kernel
theorem test_encw_six_words :
    (nextOf (exec .encw (withOperands { Operands.quiet with
      words := [0x01234567, 0x89ABCDEF, 0, 1, 1, 0] }))).res.words =
      [0x738E078D, 0x4C8703A6, 0x8BC745F9, 0xC197AC40, 0xD4C101BE, 0x7D620C93] := by decide +kernel
theorem test_encw_three_words :
    (nextOf (exec .encw (withOperands { Operands.quiet with words := [1, 2, 3] }))).status = 0xA := by decide +kernel
theorem test_init_loads : (nextOf (exec .init State.reset)).cipher.S[3][255] = 0x3AC372E6 := by decide +kernel

/-! ### Unit ksched (95_test_vectors.md sections 4.1 and 4.2) -/

theorem test_xword_vectors : extractWord [0x01, 0x02, 0x03] 2 = (0x03010203, 3) ∧
    extractWord [0x01, 0x02, 0x03] 3 = (0x01020301, 1) ∧ extractWord [0xDE, 0xAD] 7 = (0xDEADDEAD, 2) ∧
    extractWord [0x11, 0x22, 0x33, 0x44, 0x55] 3 = (0x44551122, 2) := by decide +kernel
theorem test_xword_exec :
    (nextOf (exec .xword (withOperands { Operands.quiet with key := .given [0xAB], cur := 1 }))).res.word = 0xABABABAB := by
  decide +kernel
/-- K2, P after phase 1. -/
theorem test_skey_mixing : (mixKey [0x61, 0x62, 0x63] initialCipher).1.P = #v[
    0x455D09E9, 0xE7C069B1, 0x7078E84D, 0x62121025, 0xC66A5940, 0x4AFE53B3, 0x694C99F9, 0x8E2D0DEB, 0x26494385,
    0x59B27016, 0xDC3707AD, 0x57886E0F, 0xA1CE4AD6, 0xAB1F31BF, 0x5CE5B7D6, 0xD4256A76, 0xF075B4BB, 0xEA189978] := by
  decide +kernel
/-- K1: the first two pairs, the second encrypted under tables that already hold the first. -/
theorem test_skey_pairs :
    let c := (scheduleCourse id (mixKey [0x00] initialCipher).1 0 2).cipher
    c.P[0] = 0x706D9FCC ∧ c.P[1] = 0x1792D23A ∧ c.P[2] = 0x2DB9D714 ∧ c.P[3] = 0x966E1439 := by decide +kernel
/-- K3: the running block and the salt cursor after three pairs. -/
theorem test_skeysalt_pairs :
    let x := scheduleCourse (injectSalt [1, 2, 3, 4, 5]) (mixKey [0x61, 0x62, 0x63] initialCipher).1 0 3
    x.rb = ⟨0x1245E0E5, 0xED55472A⟩ ∧ x.cur = 4 := by decide +kernel
theorem test_skeysalt_empty :
    (nextOf (exec .skeysalt (withOperands { Operands.quiet with salt := .given [] }))).status = 0xA := by decide +kernel

/-! ### Unit bhash (95_test_vectors.md section 5.2) -/

theorem test_magic : magicWords = #v[0x4F787963, 0x68726F6D, 0x61746963, 0x426C6F77, 0x66697368, 0x53776174, 0x44796E61,
    0x6D697465] := by decide +kernel
/-- Step 6 of the first hash of the known vector. -/
theorem test_encode_hash : (encodeHash #v[0xD27D92B5, 0xF69929F9, 0xD243098A, 0xB653F15E, 0x6B7F9A76, 0x2122742C, 0xBD380952,
    0xD3CBC14D]).toList = [0xB5, 0x92, 0x7D, 0xD2, 0xF9, 0x29, 0x99, 0xF6, 0x8A, 0x09, 0x43, 0xD2, 0x5E, 0xF1, 0x53, 0xB6,
    0x76, 0x9A, 0x7F, 0x6B, 0x2C, 0x74, 0x22, 0x21, 0x52, 0x09, 0x38, 0xBD, 0x4D, 0xC1, 0xCB, 0xD3] := by decide +kernel

/-! ### Unit pbkdf and the host port -/

/-- R90, with the boundary values of section 2 of the vectors. -/
theorem test_block_counts : ceilDiv 1 32 = 1 ∧ ceilDiv 32 32 = 1 ∧ ceilDiv 33 32 = 2 ∧ ceilDiv 64 32 = 2 ∧ ceilDiv 65 32 = 3 := by
  decide
/-- R94: two blocks, `OUTLEN = 3`: block 1 writes index 1 and, being past `OUTLEN`, no index from 3 on. -/
theorem test_scatter :
    scatteredOut { State.reset with blkcnt := 2, blkidx := 1, outlen := 3, acc := Vector.ofFn fun i => BitVec.ofNat 8 (i.val + 1) } =
      [(1, 1)] := by decide +kernel
/-- DOC §8: `DERIVE` straight after reset has every operand 0 and is refused. -/
theorem test_derive_refused : (nextOf (exec .derive State.reset)).status = 0x6 := by decide +kernel
theorem test_zero_erases : (nextOf (exec .zero { initState with blkcnt := 5 })).blkcnt = 0 := by decide +kernel
theorem test_zero_tables : (nextOf (exec .zero initState)).cipher.P[0] = 0 := by decide +kernel
theorem test_sha512 : (nextOf (exec .sha512 State.reset)).res.digest = Config.sha512 [] := rfl
theorem test_memory_write_read : Memory.read (Memory.write [(1, 5), (7, 9)] 4 0xAB) 4 = 0xAB := by decide
theorem test_memory_write_zero_unlists : Memory.write [(1, 5), (7, 9)] 7 0 = [(1, 5)] := by decide
/-- R26, R63: an internal code written to `CMD` ends in `STATUS = 0x6`. -/
theorem test_cmd_internal_code :
    (nextOf (run 2 { State.reset with script := [.cmd 0x07] })).status = 0x6 := by decide +kernel
/-- The code presented by `withFetchWord` runs in the next step. -/
theorem test_fetch_word : (nextOf (step (State.reset.withFetchWord 8 0x01))).cipher.P[0] = 0x243F6A88 := by decide +kernel
theorem test_fetch_reserved : (State.reset.withFetchWord 8 0x0C).opSel = some 0x0C := by decide

/-! ### Witnesses: a concrete state and operands that meet all hypotheses of each statement that has any -/

/-- The smallest valid operands, accepted by every block whatever its capacities. -/
def validState : State := { State.reset with pwlen := 1, saltlen := 1, rounds := 1, outlen := 1 }

theorem witness_valid : OperandsValid validState where
  pwlen_pos := by decide
  pwlen_cap := by simp [validState, Config.pwMax]
  saltlen_pos := by decide
  saltlen_cap := by simp [validState, Config.saltMax]
  rounds_pos := by decide
  outlen_pos := by decide
  outlen_cap := by simp [validState, Config.outMax]

/-- The same at the upper end of the register and capacity ranges that every block has. -/
def longState : State := { validState with rounds := 0xFFFFFFFF, out := [(0, 0x55)], ph := Vector.replicate 64 0xAA }

theorem witness_valid_long : OperandsValid longState :=
  ⟨witness_valid.1, witness_valid.2, witness_valid.3, witness_valid.4, by decide, witness_valid.6, witness_valid.7⟩

theorem witness_not_valid : ¬ OperandsValid State.reset := fun h => absurd h.pwlen_pos (by decide)

theorem witness_not_valid_outlen : ¬ OperandsValid { validState with outlen := 0 } := fun h => absurd h.outlen_pos (by decide)

theorem witness_reset_within (m : Memory) (h : m = []) (cap : Nat) : m.within cap := by subst h; simp

/-- A host-driven block while idle. -/
theorem witness_host_driven_idle : HostDriven validState where
  quiet := rfl
  statusIdle _ := .inl rfl
  statusBusy h := absurd rfl h
  erased _ := ⟨rfl, rfl, rfl, rfl, rfl, rfl, rfl, rfl, rfl, rfl, rfl, rfl⟩
  port := rfl
  operands h := absurd h (by decide)
  blocks h := absurd h (by decide)
  rounds h := absurd h (by decide)
  counters := rfl
  canonical := ⟨Memory.wf_nil, Memory.wf_nil, Memory.wf_nil⟩
  within := ⟨witness_reset_within _ rfl _, witness_reset_within _ rfl _, witness_reset_within _ rfl _⟩

/-- The same with an output length that `DERIVE` refuses. -/
theorem witness_host_driven_refused : HostDriven { validState with outlen := 0 } where
  quiet := rfl
  statusIdle _ := .inl rfl
  statusBusy h := absurd rfl h
  erased _ := ⟨rfl, rfl, rfl, rfl, rfl, rfl, rfl, rfl, rfl, rfl, rfl, rfl⟩
  port := rfl
  operands h := absurd h (by decide)
  blocks h := absurd h (by decide)
  rounds h := absurd h (by decide)
  counters := rfl
  canonical := ⟨Memory.wf_nil, Memory.wf_nil, Memory.wf_nil⟩
  within := ⟨witness_reset_within _ rfl _, witness_reset_within _ rfl _, witness_reset_within _ rfl _⟩

/-- A block in the middle of a command: round 1 of 2, with a request outstanding on the digest port. -/
def busyState : State :=
  { validState with status := 0x1, rounds := 2, blkcnt := 1, rnd := 1, stage := .reDigestAnswer, digestReq := some [] }

theorem witness_host_driven_busy : HostDriven busyState where
  quiet := rfl
  statusIdle h := by cases h
  statusBusy _ := rfl
  erased h := by rcases h with h | h | ⟨_, h⟩ <;> cases h
  port := rfl
  operands _ :=
    ⟨witness_valid.1, witness_valid.2, witness_valid.3, witness_valid.4, by decide, witness_valid.6, witness_valid.7⟩
  blocks _ := by decide
  rounds _ := by decide
  counters := rfl
  canonical := ⟨Memory.wf_nil, Memory.wf_nil, Memory.wf_nil⟩
  within := ⟨witness_reset_within _ rfl _, witness_reset_within _ rfl _, witness_reset_within _ rfl _⟩

theorem witness_StepRunsThePresentedOperation :
    (State.reset.withFetchWord 8 0x0A).opSel = some 0x0A ∧ decodeWord 0x0A = .ok .sha512 ∧ Instr.sha512.wf := by decide
theorem witness_ReservedCodePresentedIsRefused :
    (State.reset.withFetchWord 8 0x0B).opSel = some 0x0B ∧ commandWordWf 0x0B = false := by decide
theorem witness_EncbOnErasedTablesSwaps : State.reset.cipher = CipherState.zeroes := rfl
theorem witness_EncwEncryptsEachPair :
    ({ Operands.quiet with words := [1, 2, 3, 4] } : Operands).words.length % 2 = 0 ∧ 2 * 1 + 1 < 4 := by decide
theorem witness_EncwOddCountRaisesViolation : ({ Operands.quiet with words := [1] } : Operands).words.length % 2 = 1 := by decide
/-- A cursor inside the source, and one at its end. -/
theorem witness_XwordReadsCircularly :
    let s := withOperands { Operands.quiet with key := .given [1, 2, 3], cur := 2 }
    let t := withOperands { Operands.quiet with key := .given [1, 2, 3], cur := 3 }
    sourceBytes s s.ops.key = [1, 2, 3] ∧ s.ops.cur < 3 ∧ sourceBytes t t.ops.key = [1, 2, 3] ∧ ¬ t.ops.cur < 3 ∧
      ([1, 2, 3] : List Byte) ≠ [] := by decide
/-- Cursor 0, and the cursor at the end. -/
theorem witness_XwordAlignedReadsBigEndianWord :
    let s := withOperands { Operands.quiet with key := .given [1, 2, 3, 4], cur := 0 }
    let t := withOperands { Operands.quiet with key := .given [1, 2, 3, 4], cur := 4 }
    sourceBytes s s.ops.key = [1, 2, 3, 4] ∧ s.ops.cur % 4 = 0 ∧ s.ops.cur ≤ 4 ∧
      sourceBytes t t.ops.key = [1, 2, 3, 4] ∧ t.ops.cur % 4 = 0 ∧ t.ops.cur ≤ 4 ∧ ([1, 2, 3, 4] : List Byte) ≠ [] := by decide
/-- An empty key, and an empty salt beside a key that is not empty. -/
theorem witness_EmptySourceRaisesViolation :
    let s := withOperands { Operands.quiet with key := .given [] }
    let t := withOperands { Operands.quiet with salt := .given [] }
    sourceBytes s s.ops.key = [] ∧ sourceBytes t t.ops.salt = [] ∧ sourceBytes t t.ops.key ≠ [] := by decide
theorem witness_KeyMixingXorsCircularKeyWords : ([0x61, 0x62, 0x63] : List Byte) ≠ [] := by decide
theorem witness_SkeyRewritesTheTables : sourceBytes State.reset State.reset.ops.key ≠ [] := by decide
theorem witness_SkeysaltRewritesTheTables :
    sourceBytes State.reset State.reset.ops.key ≠ [] ∧ sourceBytes State.reset State.reset.ops.salt ≠ [] := by decide
/-- The first pair and the last one, each with a pair before or behind it, without salt and with one. -/
theorem witness_ScheduleEncryptsUnderPartialTables :
    ((id : Sched → Sched) = id ∨ ∃ Sa, (id : Sched → Sched) = injectSalt Sa) ∧
      (injectSalt [1, 2, 3] = id ∨ ∃ Sa, injectSalt [1, 2, 3] = injectSalt Sa) ∧ ([1, 2, 3] : List Byte) ≠ [] ∧
      scheduleSlots[0]? = some (.p 0) ∧ scheduleSlots[519]? = some (.s 3 126) ∧ (520 : Fin 521).val = 519 + 1 ∧
      scheduleSlots[520]? = some (.s 3 127) :=
  ⟨.inl rfl, .inr ⟨_, rfl⟩, by decide, by decide +kernel, by decide +kernel, by decide, by decide +kernel⟩
/-- One zero byte and eight zero bytes (95_test_vectors.md K1). -/
theorem witness_SkeyDependsOnTheKeyExpansionOnly : ([0] : List Byte) ≠ [] ∧ (List.replicate 8 0 : List Byte) ≠ [] ∧
    ∀ j, j < 72 → circularByte [0] j = circularByte (List.replicate 8 0) j := by decide +kernel
/-- One zero byte given, and a zero-filled `SD` passed by reference. -/
theorem witness_SkeysaltWithZeroSaltIsSkey :
    let s := withOperands { Operands.quiet with salt := .given [0] }
    let t := State.reset
    sourceBytes s s.ops.key ≠ [] ∧ sourceBytes s s.ops.salt = List.replicate (0 + 1) 0 ∧
      t.ops.salt = .sd ∧ sourceBytes t t.ops.key ≠ [] ∧ sourceBytes t t.ops.salt = List.replicate (63 + 1) 0 := by decide
theorem witness_HashStagesAreBhash : ({ busyState with stage := .hash true .init } : State).stage = .hash true .init := rfl
/-- A busy block at a stage, with operands on the unit interface and no request on the digest port. -/
def atStage (g : Stage) (o : Operands) : State := { busyState with stage := g, ops := o, digestReq := none }

/-- The same with a request outstanding. -/
def awaiting (g : Stage) (o : Operands) (m : List Byte) : State := { atStage g o with digestReq := some m }

/-- One state for each clause, the last expansion and the last encryption among them. -/
theorem witness_SequencerMovesRunTheTableOperations :
    let keyed := fun k => { Operands.quiet with key := k }
    let messaged := { Operands.quiet with msg := [0x61] }
    let words := fun n => atStage (.hash false (.encrypt n)) { Operands.quiet with words := List.replicate 8 0 }
    (atStage (.hash false .init) Operands.quiet).stage = .hash false .init ∧
    (atStage (.hash false .salted) Operands.quiet).stage = .hash false .salted ∧ Operands.quiet.key = .ph ∧
      Operands.quiet.salt = .sd ∧
    (atStage (.hash false (.expandSalt 63)) (keyed .sd)).stage = .hash false (.expandSalt 63) ∧ (keyed .sd).key = .sd ∧
    (atStage (.hash false (.expandKey 63)) (keyed .ph)).stage = .hash false (.expandKey 63) ∧ (keyed .ph).key = .ph ∧
    ((words 62).stage = .hash false (.encrypt 62) ∧ (words 62).ops.words = (words 62).cdata.toList) ∧
    ((words 63).stage = .hash false (.encrypt 63) ∧ (words 63).ops.words = (words 63).cdata.toList) ∧
    (atStage .preHash messaged).stage = .preHash ∧
    (awaiting .preHashAnswer messaged [0x61]).digestReq = some (awaiting .preHashAnswer messaged [0x61]).ops.msg ∧
    (atStage .saltDigest messaged).stage = .saltDigest ∧
    (awaiting .saltDigestAnswer messaged [0x61]).digestReq = some (awaiting .saltDigestAnswer messaged [0x61]).ops.msg ∧
    (atStage .reDigest messaged).stage = .reDigest ∧
    (awaiting .reDigestAnswer messaged [0x61]).digestReq = some (awaiting .reDigestAnswer messaged [0x61]).ops.msg ∧
    (atStage .erase messaged).stage = .erase := by decide +kernel
/-- The smallest operands, and the greatest number of rounds. -/
theorem witness_DeriveWritesTheClosedForm : (validState.busy = false ∧ OperandsValid validState ∧ validState.out.wf) ∧
    (longState.busy = false ∧ OperandsValid longState ∧ longState.out.wf) :=
  ⟨⟨by decide, witness_valid, Memory.wf_nil⟩, ⟨by decide, witness_valid_long, by decide⟩⟩
theorem witness_DeriveRefusesInvalidOperands : State.reset.busy = false ∧ ¬ OperandsValid State.reset :=
  ⟨by decide, witness_not_valid⟩
theorem witness_DeriveWhileBusyIsIgnored : busyState.busy = true := by decide
/-- Two states that differ in `OUT` and in the internal storage. -/
theorem witness_DeriveDependsOnItsOperandsOnly :
    let s := { validState with out := [(0, 0x55)], ph := Vector.replicate 64 0xAA }
    validState.busy = false ∧ s.busy = false ∧ OperandsValid validState ∧ OperandsValid s ∧ validState.out.wf ∧ s.out.wf ∧
      passwordBytes validState = passwordBytes s ∧ saltBytes validState = saltBytes s ∧ validState.rounds = s.rounds ∧
      validState.outlen = s.outlen :=
  ⟨by decide, by decide, witness_valid, ⟨witness_valid.1, witness_valid.2, witness_valid.3, witness_valid.4,
    witness_valid.5, witness_valid.6, witness_valid.7⟩, Memory.wf_nil, by decide, rfl, rfl, rfl, rfl⟩
theorem witness_SameBlockCountSharesOutput :
    let s := { validState with out := [(0, 0x55)], ph := Vector.replicate 64 0xAA }
    validState.busy = false ∧ s.busy = false ∧ OperandsValid validState ∧ OperandsValid s ∧ validState.out.wf ∧ s.out.wf ∧
      passwordBytes validState = passwordBytes s ∧ saltBytes validState = saltBytes s ∧ validState.rounds = s.rounds ∧
      (validState.outlen.toNat + 31) / 32 = (s.outlen.toNat + 31) / 32 ∧ 0 < validState.outlen.toNat ∧ 0 < s.outlen.toNat :=
  ⟨by decide, by decide, witness_valid, ⟨witness_valid.1, witness_valid.2, witness_valid.3, witness_valid.4,
    witness_valid.5, witness_valid.6, witness_valid.7⟩, Memory.wf_nil, by decide, rfl, rfl, rfl, by decide, by decide, by decide⟩
/-- Two blocks, the second before the first. -/
theorem witness_BlockOrderDoesNotMatter :
    let s := { validState with outlen := 33, blkcnt := 2 }
    s.out.wf ∧ s.blkcnt = (s.outlen.toNat + 31) / 32 ∧ [1, 0].Perm (List.range s.blkcnt) := by decide
/-- The least length, a whole block, one byte more, and the greatest length a register holds. -/
theorem witness_BlockCountIsTheCeiling :
    1 ≤ (1 : Word).toNat ∧ 1 ≤ (32 : Word).toNat ∧ (32 : Word).toNat % 32 = 0 ∧ (33 : Word).toNat % 32 ≠ 0 ∧
      (0xFFFFFFFF : Word).toNat % 32 ≠ 0 := by decide
/-- Index 4 is the last below `OUTLEN = 5`; index 5 is the first past it. -/
theorem witness_ScatterPlacesEachByte :
    let s := { validState with outlen := 5, blkcnt := 1, blkidx := 0 }
    s.out.wf ∧ s.blkidx < s.blkcnt ∧ (4 : Fin 32).val * s.blkcnt + s.blkidx < s.outlen.toNat ∧
      ∀ i : Fin 32, 5 = i.val * s.blkcnt + s.blkidx → s.outlen.toNat ≤ 5 := by decide
theorem witness_ZeroErasesTheInternalStorage : InternalZero validState := witness_host_driven_idle.erased (.inl rfl)
theorem witness_CmdIsATrigger : validState.busy = false ∧ busyState.busy = true := by decide
theorem witness_HostAccessWhileBusy : busyState.opSel = none ∧ busyState.busy = true ∧ HostReg.rounds ≠ .status := by decide
theorem witness_HostRegistersArePlainStorage : validState.busy = false := by decide
/-- The last byte of a buffer. -/
theorem witness_HostBufferReadsBackWhatWasWritten : validState.busy = false ∧ (bufferOf validState .pwd).wf ∧
    Config.pwMaxLessOne + ([0xAB] : List Byte).length ≤ bufferCapacity .pwd :=
  ⟨by decide, Memory.wf_nil, le_refl _⟩
/-- The first byte past a buffer. -/
theorem witness_HostAccessPastCapacityFaults : validState.busy = false ∧
    bufferCapacity .pwd < Config.pwMax + ([0xAB] : List Byte).length ∧ bufferCapacity .pwd < Config.pwMax + 1 :=
  ⟨by decide, Nat.lt_succ_self _, Nat.lt_succ_self _⟩
/-- An internal code with valid operands, and `DERIVE` with an output length of 0. -/
theorem witness_ErrorCompletionChangesStatusOnly :
    HostDriven validState ∧ validState.stage = .idle ∧ validState.script = [] ∧
      ((0x07 : BitVec 8) ≠ 0x08 ∨ ¬ OperandsValid validState) ∧ HostDriven { validState with outlen := 0 } ∧
      ((0x08 : BitVec 8) ≠ 0x08 ∨ ¬ OperandsValid { validState with outlen := 0 }) :=
  ⟨witness_host_driven_idle, rfl, rfl, .inl (by decide), witness_host_driven_refused, .inr witness_not_valid_outlen⟩
theorem witness_HardwareResetAtAnyMoment :
    let s := { busyState with script := [.reset, .wait] }
    s.opSel = none ∧ s.script = .reset :: [.wait] := by decide +kernel
/-- A step of an idle block and one of a running command. -/
theorem witness_EveryStepKeepsHostDriven :
    (HostDriven validState ∧ step validState = .next validState) ∧
      (HostDriven busyState ∧ step busyState = .next (advance busyState)) :=
  ⟨⟨witness_host_driven_idle, rfl⟩, ⟨witness_host_driven_busy, rfl⟩⟩
theorem witness_EveryStepKeepsMemoryCanonical :
    MemoryCanonical { validState with out := [(0, 0x55), (9, 0x01)] } ∧
      step { validState with out := [(0, 0x55), (9, 0x01)] } = .next { validState with out := [(0, 0x55), (9, 0x01)] } :=
  ⟨⟨Memory.wf_nil, Memory.wf_nil, by decide⟩, rfl⟩
theorem witness_StatusStaysLegal : HostDriven validState ∧ run 1 validState = .next validState :=
  ⟨witness_host_driven_idle, rfl⟩
theorem witness_RefinedDeriveIsAtomicDerive : HostDriven validState ∧ validState.stage = .idle ∧ validState.script = [] :=
  ⟨witness_host_driven_idle, rfl, rfl⟩
theorem witness_EveryCommandCompletes : HostDriven busyState ∧ busyState.stage ≠ .idle ∧ busyState.script = [] :=
  ⟨witness_host_driven_busy, by decide, rfl⟩
/-- A wait that finds `DONE = 1`, and one that does not. -/
theorem witness_WaitEndsAtDone :
    let s := { validState with status := 0x2, script := [.wait, .rd .status] }
    let t := { busyState with script := [.wait] }
    s.opSel = none ∧ s.script = .wait :: [.rd .status] ∧ s.done = true ∧
      t.opSel = none ∧ t.script = .wait :: [] ∧ t.done = false := by decide +kernel

end Sys2Proof.Tests
end

