-- ==== Sys2Proof/Proofs/SequencerMoves.lean ====
section
/-! What one move of the sequencer does at each stage (R30, R87), what every move leaves alone, and runs of a block whose host is
silent. The moves are stated on a state placed at a stage, so that the stage is the only difference between a move and the
operation it runs. -/

namespace Sys2Proof.Machine

/-- `s` with the sequencer standing at stage `g` (R30). -/
def State.atStage (s : State) (g : Stage) : State := { s with stage := g }

/-! The move at each stage. -/

theorem advance_accepted (s : State) (c : BitVec 8) :
    advance (s.atStage (.accepted c)) = checkCommand c (s.atStage (.accepted c)) := rfl

theorem checkCommand_derive_refused {s : State} (h : operandsRefused s = true) :
    checkCommand deriveCode s = raise .invalidArgument s := by
  rw [checkCommand, if_pos rfl, if_pos h]

theorem checkCommand_derive_valid {s : State} (h : operandsRefused s = false) :
    checkCommand deriveCode s = s.atStage .preHash := by
  rw [checkCommand, if_pos rfl, if_neg (by simp [h])]
  rfl

theorem advance_blockCount (s : State) : advance (s.atStage .blockCount) = (countBlocks s).atStage .saltDigest := rfl

theorem advance_hash_init (s : State) (again : Bool) :
    advance (s.atStage (.hash again .init)) = (initCipher s).atStage (.hash again .salted) := rfl

theorem advance_hash_salted (s : State) (again : Bool) :
    advance (s.atStage (.hash again .salted)) = (hashSalted s).atStage (.hash again (.expandSalt 0)) := rfl

theorem advance_hash_expandSalt (s : State) (again : Bool) (n : Nat) :
    advance (s.atStage (.hash again (.expandSalt n))) = (hashExpandSalt s).atStage (.hash again (.expandKey n)) := rfl

theorem advance_hash_expandKey (s : State) (again : Bool) (n : Nat) :
    advance (s.atStage (.hash again (.expandKey n))) =
      (hashExpandKey s).atStage (.hash again (if n + 1 < Config.eksIter then .expandSalt (n + 1) else .load)) := rfl

theorem advance_hash_load (s : State) (again : Bool) :
    advance (s.atStage (.hash again .load)) = (hashLoad s).atStage (.hash again (.encrypt 0)) := rfl

theorem advance_hash_encrypt (s : State) (again : Bool) (n : Nat) :
    advance (s.atStage (.hash again (.encrypt n))) =
      (hashEncrypt s).atStage (.hash again (if n + 1 < Config.encIter then .encrypt (n + 1) else .encode)) := rfl

theorem advance_hash_encode (s : State) (again : Bool) :
    advance (s.atStage (.hash again .encode)) = (hashEncode s).atStage (.accumulate again) := rfl

/-- Where the sequencer stood before has no bearing on what follows a block. -/
theorem enterBlock_atStage (b : Nat) (s : State) (g : Stage) : enterBlock b (s.atStage g) = enterBlock b s := rfl

theorem enterRound_of_lt {r : Nat} {s : State} (h : r < s.rounds.toNat) :
    enterRound r s = ({ s with rnd := r } : State).atStage .reDigest := if_pos h

theorem enterRound_of_le {r : Nat} {s : State} (h : s.rounds.toNat ≤ r) : enterRound r s = s.atStage .scatter :=
  if_neg (by omega)

theorem enterBlock_of_lt {b : Nat} {s : State} (h : b < s.blkcnt) :
    enterBlock b s = ({ s with blkidx := b } : State).atStage .saltDigest := if_pos h

theorem enterBlock_of_le {b : Nat} {s : State} (h : s.blkcnt ≤ b) : enterBlock b s = s.atStage .erase :=
  if_neg (by omega)

theorem advance_accumulate_first (s : State) : advance (s.atStage (.accumulate false)) = enterRound 1 (assignAcc s) := rfl

theorem advance_accumulate_again (s : State) : advance (s.atStage (.accumulate true)) = enterRound (s.rnd + 1) (xorAcc s) := rfl

theorem scatterAcc_atStage (s : State) (g : Stage) : scatterAcc (s.atStage g) = (scatterAcc s).atStage g := by
  have same : scatteredOut (s.atStage g) = scatteredOut s := by
    rw [scatteredOut_eq, scatteredOut_eq]
    rfl
  rw [scatterAcc, same]
  rfl

theorem advance_scatter (s : State) : advance (s.atStage .scatter) = enterBlock (s.blkidx + 1) (scatterAcc s) := by
  show enterBlock (s.blkidx + 1) (scatterAcc (s.atStage .scatter)) = _
  rw [scatterAcc_atStage, enterBlock_atStage]

theorem advance_erase (s : State) : advance (s.atStage .erase) = (eraseInternal s).atStage .report := rfl

theorem advance_report (s : State) : advance (s.atStage .report) = reportDone s := rfl

/-! The digest exchanges (R96): request and answer. -/

/-- The answer to a request stores the digest of its message and leaves the port as it was before the request, where `store` does
not look at the port and the stage. -/
theorem takeDigest_sendDigest {store : List Byte → State → State} {m : List Byte} {g g' : Stage} {s : State}
    (h : s.digestReq = none)
    (hstore : ({ store m (sendDigest m g s) with digestReq := s.digestReq } : State).atStage g' = (store m s).atStage g') :
    takeDigest store g' (sendDigest m g s) = (store m s).atStage g' := by
  rw [← hstore, h]
  rfl

/-- Request and answer of step 1 (R89): two moves that store the pre-hash. -/
theorem advance_advance_preHash {s : State} (h : s.digestReq = none) :
    advance (advance (s.atStage .preHash)) = (storePreHash (passwordBytes s) s).atStage .blockCount :=
  takeDigest_sendDigest (s := s.atStage _) h rfl

/-- Request and answer of step 3a (R91). -/
theorem advance_advance_saltDigest {s : State} (h : s.digestReq = none) :
    advance (advance (s.atStage .saltDigest)) = (storeSaltDigest (saltMessage s) s).atStage (.hash false .init) :=
  takeDigest_sendDigest (s := s.atStage _) h rfl

/-- Request and answer of step 3c (R93). -/
theorem advance_advance_reDigest {s : State} (h : s.digestReq = none) :
    advance (advance (s.atStage .reDigest)) = (storeSaltDigest (hashMessage s) s).atStage (.hash true .init) :=
  takeDigest_sendDigest (s := s.atStage _) h rfl

/-! What every move leaves alone: the unit interface, the script and what the host has read. -/

theorem SameInterface.refl (s : State) : SameInterface s s := ⟨rfl, rfl, rfl, rfl, rfl, rfl⟩

theorem SameInterface.trans {s t u : State} (h : SameInterface s t) (h' : SameInterface t u) : SameInterface s u where
  opSel := h'.opSel.trans h.opSel
  ops := h'.ops.trans h.ops
  res := h'.res.trans h.res
  script := h'.script.trans h.script
  rdWord := h'.rdWord.trans h.rdWord
  rdBytes := h'.rdBytes.trans h.rdBytes

theorem checkCommand_sameInterface (c : BitVec 8) (s : State) : SameInterface s (checkCommand c s) := by
  unfold checkCommand
  split
  · split <;> exact ⟨rfl, rfl, rfl, rfl, rfl, rfl⟩
  · exact ⟨rfl, rfl, rfl, rfl, rfl, rfl⟩

theorem takeDigest_sameInterface {store : List Byte → State → State} (g : Stage) {s : State}
    (h : ∀ m, SameInterface s (store m s)) : SameInterface s (takeDigest store g s) := by
  unfold takeDigest
  cases s.digestReq with
  | some m => exact (h m).trans ⟨rfl, rfl, rfl, rfl, rfl, rfl⟩
  | none => exact .refl s

theorem storePreHash_sameInterface (m : List Byte) (s : State) : SameInterface s (storePreHash m s) :=
  ⟨rfl, rfl, rfl, rfl, rfl, rfl⟩

theorem storeSaltDigest_sameInterface (m : List Byte) (s : State) : SameInterface s (storeSaltDigest m s) :=
  ⟨rfl, rfl, rfl, rfl, rfl, rfl⟩

theorem assignAcc_sameInterface (s : State) : SameInterface s (assignAcc s) := ⟨rfl, rfl, rfl, rfl, rfl, rfl⟩

theorem xorAcc_sameInterface (s : State) : SameInterface s (xorAcc s) := ⟨rfl, rfl, rfl, rfl, rfl, rfl⟩

theorem scatterAcc_sameInterface (s : State) : SameInterface s (scatterAcc s) := ⟨rfl, rfl, rfl, rfl, rfl, rfl⟩

theorem advanceHash_sameInterface (again : Bool) (h : HashStage) (s : State) : SameInterface s (advanceHash again h s) := by
  cases h <;> exact ⟨rfl, rfl, rfl, rfl, rfl, rfl⟩

theorem enterRound_sameInterface (r : Nat) (s : State) : SameInterface s (enterRound r s) := by
  unfold enterRound
  split <;> exact ⟨rfl, rfl, rfl, rfl, rfl, rfl⟩

theorem enterBlock_sameInterface (b : Nat) (s : State) : SameInterface s (enterBlock b s) := by
  unfold enterBlock
  split <;> exact ⟨rfl, rfl, rfl, rfl, rfl, rfl⟩

/-- No move of the sequencer touches the interface. -/
theorem advance_sameInterface (s : State) : SameInterface s (advance s) := by
  unfold advance
  cases s.stage with
  | idle => exact .refl s
  | accepted c => exact checkCommand_sameInterface c s
  | preHashAnswer => exact takeDigest_sameInterface _ fun m => storePreHash_sameInterface m s
  | saltDigestAnswer | reDigestAnswer => exact takeDigest_sameInterface _ fun m => storeSaltDigest_sameInterface m s
  | hash again h => exact advanceHash_sameInterface again h s
  | accumulate again =>
    cases again with
    | false => exact (assignAcc_sameInterface s).trans (enterRound_sameInterface 1 (assignAcc s))
    | true => exact (xorAcc_sameInterface s).trans (enterRound_sameInterface (s.rnd + 1) (xorAcc s))
  | scatter => exact (scatterAcc_sameInterface s).trans (enterBlock_sameInterface (s.blkidx + 1) (scatterAcc s))
  | preHash | blockCount | saltDigest | reDigest | erase | report => exact ⟨rfl, rfl, rfl, rfl, rfl, rfl⟩

/-- With nothing presented and a silent host, `k` steps are `k` moves of the sequencer. -/
theorem run_silent (k : Nat) {s : State} (ho : s.opSel = none) (hs : s.script = []) : run k s = .next (iter advance k s) := by
  induction k generalizing s with
  | zero => rw [run_zero, iter_zero]
  | succ k ih =>
    have same := advance_sameInterface s
    rw [run_next k (step_silent ho hs), iter_succ, ih (same.opSel.trans ho) (same.script.trans hs)]

/-! Some number of moves. -/

/-- The sequencer comes from `s` to `t` in some number of moves. -/
def Moves (s t : State) : Prop := ∃ k, iter advance k s = t

theorem Moves.refl (s : State) : Moves s s := ⟨0, iter_zero _ _⟩

theorem Moves.trans {s t u : State} (h : Moves s t) (h' : Moves t u) : Moves s u := by
  obtain ⟨m, rfl⟩ := h
  obtain ⟨n, rfl⟩ := h'
  exact ⟨m + n, iter_add _ _ _ _⟩

/-- The first move is known. -/
theorem Moves.head {s t u : State} (h : advance s = t) (h' : Moves t u) : Moves s u := by
  obtain ⟨n, rfl⟩ := h'
  exact ⟨n + 1, by rw [iter_succ, h]⟩

end Sys2Proof.Machine
end

