-- ==== Sys2Proof/Proofs/RefinedDerive.lean ====
section
/-! DERIVE refined into moves of the sequencer (R7, R30, R87): each loop of the atomic `deriveAll` is the moves from the stage
where the sequencer enters that loop to the stage where it leaves it. -/

namespace Sys2Proof.Machine

/-! `BHASH` (R82): 1 + 1 + 2 * 64 + 1 + 64 + 1 moves. -/

/-- Step 3, with `n` iterations to go. -/
theorem iter_advance_expand (again : Bool) (n m : Nat) (s : State) (h : m + n = Config.eksIter) :
    iter advance (2 * n) (s.atStage (.hash again (if m < Config.eksIter then .expandSalt m else .load))) =
      (iter (fun s => hashExpandKey (hashExpandSalt s)) n s).atStage (.hash again .load) := by
  induction n generalizing m s with
  | zero => rw [if_neg (by omega), Nat.mul_zero, iter_zero, iter_zero]
  | succ n ih =>
    rw [if_pos (by omega), Nat.mul_succ, iter_succ, iter_succ, advance_hash_expandSalt, advance_hash_expandKey,
      ih (m + 1) _ (by omega), iter_succ]

/-- Step 5, with `n` encryptions to go. -/
theorem iter_advance_encrypt (again : Bool) (n m : Nat) (s : State) (h : m + n = Config.encIter) :
    iter advance n (s.atStage (.hash again (if m < Config.encIter then .encrypt m else .encode))) =
      (iter hashEncrypt n s).atStage (.hash again .encode) := by
  induction n generalizing m s with
  | zero => rw [if_neg (by omega), iter_zero, iter_zero]
  | succ n ih => rw [if_pos (by omega), iter_succ, advance_hash_encrypt, ih (m + 1) _ (by omega), iter_succ]

/-- From the first step of a hash, 196 moves are `BHASH`. -/
theorem iter_advance_hash (again : Bool) (s : State) :
    iter advance 196 (s.atStage (.hash again .init)) = (hashEngine s).atStage (.accumulate again) := by
  have expand := iter_advance_expand again Config.eksIter 0 (hashSalted (initCipher s)) (Nat.zero_add _)
  have encrypt := fun x => iter_advance_encrypt again Config.encIter 0 x (Nat.zero_add _)
  rw [if_pos (by decide)] at expand
  simp only [if_pos (show 0 < Config.encIter by decide)] at encrypt
  rw [show 196 = 2 * Config.eksIter + (Config.encIter + 1 + 1) + 1 + 1 by decide, iter_succ, iter_succ, iter_add,
    advance_hash_init, advance_hash_salted, expand, iter_succ, advance_hash_load, iter_add, encrypt, iter_succ, iter_zero,
    advance_hash_encode, hashEngine]

theorem moves_hash (again : Bool) (s : State) :
    Moves (s.atStage (.hash again .init)) ((hashEngine s).atStage (.accumulate again)) := ⟨196, iter_advance_hash again s⟩

/-! The pieces of state the loops are steered by: `ROUNDS`, `BLKCNT`, `BLKIDX`, and the digest port. -/

theorem stretchRound_rounds (s : State) : (stretchRound s).rounds = s.rounds :=
  stretchRound_keeps State.rounds (fun _ _ _ _ _ _ _ _ _ => rfl) s
theorem stretchRound_digestReq (s : State) : (stretchRound s).digestReq = s.digestReq :=
  stretchRound_keeps State.digestReq (fun _ _ _ _ _ _ _ _ _ => rfl) s
theorem stretchRounds_blkidx (n r : Nat) (s : State) : (stretchRounds n r s).blkidx = s.blkidx :=
  stretchRounds_keeps State.blkidx (fun _ _ _ _ _ _ _ _ _ => rfl) (fun _ _ => rfl) n r s
theorem deriveBlock_blkcnt (s : State) : (deriveBlock s).blkcnt = s.blkcnt :=
  deriveBlock_keeps State.blkcnt (fun _ _ _ _ _ _ _ _ _ => rfl) (fun _ _ => rfl) (fun _ _ => rfl) s
theorem deriveBlock_digestReq (s : State) : (deriveBlock s).digestReq = s.digestReq :=
  deriveBlock_keeps State.digestReq (fun _ _ _ _ _ _ _ _ _ => rfl) (fun _ _ => rfl) (fun _ _ => rfl) s

/-! The stretching loop (R93) and the block loop (R87 step 3). -/

/-- Round `r`: digest, hash, XOR, and on to the next round. -/
theorem moves_stretchRound {s : State} {r : Nat} (hr : s.rnd = r) (hport : s.digestReq = none) :
    Moves (s.atStage .reDigest) (enterRound (r + 1) (stretchRound s)) := by
  refine .head rfl (.head (advance_advance_reDigest hport) ?_)
  refine (moves_hash true _).trans (.head (advance_accumulate_again _) ?_)
  rw [hashEngine_rnd, storeSaltDigest_rnd, hr]
  exact .refl _

/-- The stretching loop from round `r` on, with `n` rounds to go. -/
theorem moves_stretchRounds (n r : Nat) (s : State) (hn : n = s.rounds.toNat - r) (hport : s.digestReq = none) :
    Moves (enterRound r s) ((stretchRounds n r s).atStage .scatter) := by
  induction n generalizing r s with
  | zero =>
    rw [enterRound_of_le (by omega), stretchRounds_zero]
    exact .refl _
  | succ n ih =>
    rw [enterRound_of_lt (by omega), stretchRounds_succ]
    refine (moves_stretchRound (s := { s with rnd := r }) rfl hport).trans (ih (r + 1) _ ?_ ?_)
    · rw [stretchRound_rounds]
      show n = s.rounds.toNat - (r + 1)
      omega
    · rw [stretchRound_digestReq]
      exact hport

/-- Block `b`: steps 3a to 3d, and on to the next block. -/
theorem moves_deriveBlock {s : State} {b : Nat} (hb : s.blkidx = b) (hport : s.digestReq = none) :
    Moves (s.atStage .saltDigest) (enterBlock (b + 1) (deriveBlock s)) := by
  refine .head rfl (.head (advance_advance_saltDigest hport) ?_)
  refine (moves_hash false _).trans (.head (advance_accumulate_first _) ?_)
  refine (moves_stretchRounds _ 1 _ rfl ?_).trans (.head (advance_scatter _) ?_)
  · rw [assignAcc_digestReq, hashEngine_digestReq, storeSaltDigest_digestReq, hport]
  · rw [stretchRounds_blkidx, assignAcc_blkidx, hashEngine_blkidx, storeSaltDigest_blkidx, hb, deriveBlock]
    exact .refl _

/-- The block loop from block `b` on, with `n` blocks to go. -/
theorem moves_deriveBlocks (n b : Nat) (s : State) (hn : n = s.blkcnt - b) (hport : s.digestReq = none) :
    Moves (enterBlock b s) ((deriveBlocks n b s).atStage .erase) := by
  induction n generalizing b s with
  | zero =>
    rw [enterBlock_of_le (by omega), deriveBlocks_zero]
    exact .refl _
  | succ n ih =>
    rw [enterBlock_of_lt (by omega), deriveBlocks_succ]
    refine (moves_deriveBlock (s := { s with blkidx := b }) rfl hport).trans (ih (b + 1) _ ?_ ?_)
    · rw [deriveBlock_blkcnt]
      show n = s.blkcnt - (b + 1)
      omega
    · rw [deriveBlock_digestReq]
      exact hport

/-! The whole command. -/

/-- Step 2 leaves the sequencer at block 0, because a valid `OUTLEN` has at least one block (R90). -/
theorem countBlocks_enterBlock {s : State} (h : 1 ≤ s.outlen.toNat) :
    (countBlocks s).atStage .saltDigest = enterBlock 0 (countBlocks s) := by
  have hpos : 0 < (countBlocks s).blkcnt := by
    simp only [countBlocks_blkcnt, ceilDiv, Config.hlen]
    omega
  rw [enterBlock_of_lt hpos]
  rfl

/-- Steps 1 to 4 and completion, on operands that are not refused. -/
theorem moves_deriveAll {s : State} (hport : s.digestReq = none) (hlen : 1 ≤ s.outlen.toNat) :
    Moves (s.atStage .preHash) (deriveAll s) := by
  have blocks := moves_deriveBlocks _ 0 (countBlocks (storePreHash (passwordBytes s) s)) (Nat.sub_zero _).symm hport
  refine .head rfl (.head (advance_advance_preHash hport) (.head (advance_blockCount _) ?_))
  rw [countBlocks_enterBlock (s := storePreHash _ s) hlen]
  exact blocks.trans (.head (advance_erase _) (.head (advance_report _) (.refl _)))

/-- From its acceptance on, the refined command ends where the atomic one does, whether its operands are valid or not. -/
theorem moves_derive {s : State} (hport : s.digestReq = none) : Moves (accept deriveCode s) (derive (accept deriveCode s)) := by
  have check : advance (accept deriveCode s) = checkCommand deriveCode (accept deriveCode s) :=
    advance_accepted (accept deriveCode s) deriveCode
  cases h : operandsRefused (accept deriveCode s) with
  | true =>
    rw [derive, if_pos h]
    exact .head (check.trans (checkCommand_derive_refused h)) (.refl _)
  | false =>
    obtain ⟨-, -, -, hlen, -⟩ := operandsRefused_eq_false.1 h
    rw [derive, if_neg (by simp [h])]
    exact .head (check.trans (checkCommand_derive_valid h)) (moves_deriveAll hport hlen)

/-! The host port of an idle block. -/

/-- An idle block that only its host drives is not busy (R27). -/
theorem HostDriven.busy_eq_false {s : State} (h : HostDriven s) (hidle : s.stage = .idle) : s.busy = false := by
  rcases h.statusIdle hidle with e | e | e <;> rw [State.busy, e] <;> decide

/-- An idle block that only its host drives has no digest request outstanding (R96). -/
theorem HostDriven.digestReq_eq_none {s : State} (h : HostDriven s) (hidle : s.stage = .idle) : s.digestReq = none := by
  have hport : s.digestReq.isSome = false := by rw [h.port, hidle, Stage.awaitsDigest]
  simpa using hport

/-- The presented operation `DERIVE` while `BUSY = 0` (R52, R87). -/
theorem exec_derive_of_not_busy {s : State} (h : s.busy = false) : exec .derive s = .next (derive (accept deriveCode s)) := by
  rw [exec, execDerive, if_neg (by simp [h])]

/-- The line `CMD c` at an idle block whose host then falls silent is the acceptance of `c` (R26, R87). -/
theorem step_cmd_of_not_busy {s : State} (c : BitVec 8) (ho : s.opSel = none) (hs : s.script = []) (hb : s.busy = false) :
    step { s with script := [.cmd c] } = .next (accept c s) := by
  have silent : ({ s with script := [] } : State) = s := by rw [← hs]
  rw [step_line (s := { s with script := [.cmd c] }) ho rfl (by simp)]
  show Host.Outcome.next (hostCommand c { s with script := [] }) = _
  rw [silent, hostCommand, if_neg (by simp [hb])]

/-- Settles O53: after the step that accepts the command, the moves of the sequencer follow the loops of the atomic `DERIVE`. -/
theorem refinedDeriveIsAtomicDerive : Obligations.RefinedDeriveIsAtomicDerive := by
  intro s hdriven hidle hscript
  have hbusy := hdriven.busy_eq_false hidle
  obtain ⟨k, hk⟩ := moves_derive (hdriven.digestReq_eq_none hidle)
  refine ⟨k + 1, derive (accept deriveCode s), exec_derive_of_not_busy hbusy, ?_⟩
  calc run (k + 1) { s with script := [.cmd deriveCode] }
      = run k (accept deriveCode s) := run_next k (step_cmd_of_not_busy deriveCode hdriven.quiet hscript hbusy)
    _ = .next (iter advance k (accept deriveCode s)) := run_silent k hdriven.quiet hscript
    _ = .next (derive (accept deriveCode s)) := by rw [hk]

end Sys2Proof.Machine
end

