-- ==== Sys2Proof/Proofs/HostAccess.lean ====
section
/-! Host accesses one by one (`spec/10_state.md` R24 to R28): the buffers as `bufferOf` and `withBuffer` see them, what an access
does while `BUSY = 0`, and everything one line of a host script can do (`HostEffect`). -/

namespace Sys2Proof.Machine

/-! Replacing the contents of one host buffer (R28). -/

@[simp] theorem bufferOf_withBuffer (s : State) (b : HostBuf) (m : Memory) : bufferOf (withBuffer s b m) b = m := by
  cases b <;> rfl

@[simp] theorem withBuffer_status (s : State) (b : HostBuf) (m : Memory) : (withBuffer s b m).status = s.status := by
  cases b <;> rfl

@[simp] theorem withBuffer_stage (s : State) (b : HostBuf) (m : Memory) : (withBuffer s b m).stage = s.stage := by
  cases b <;> rfl

@[simp] theorem withBuffer_digestReq (s : State) (b : HostBuf) (m : Memory) :
    (withBuffer s b m).digestReq = s.digestReq := by
  cases b <;> rfl

@[simp] theorem withBuffer_opSel (s : State) (b : HostBuf) (m : Memory) : (withBuffer s b m).opSel = s.opSel := by
  cases b <;> rfl

@[simp] theorem withBuffer_busy (s : State) (b : HostBuf) (m : Memory) : (withBuffer s b m).busy = s.busy :=
  congrArg busyFlag (withBuffer_status s b m)

/-- Reading back the range that was just written gives the bytes written. -/
theorem Memory.readBytes_writeBytes_same {m : Memory} (h : m.wf) (i : Nat) (vs : List Byte) :
    (m.writeBytes i vs).readBytes i vs.length = vs := by
  apply List.ext_getElem (Memory.readBytes_length _ _ _)
  intro k hk hk'
  rw [Memory.readBytes_getElem, Memory.read_writeBytes h, if_pos (by omega), Nat.add_sub_cancel_left]
  exact List.getD_eq_getElem vs 0 hk'

/-! Accesses while `BUSY = 0`. -/

theorem hostCommand_of_not_busy {s : State} (c : BitVec 8) (h : s.busy = false) : hostCommand c s = accept c s :=
  if_neg (by simp [h])

theorem hostCommand_of_busy {s : State} (c : BitVec 8) (h : s.busy = true) : hostCommand c s = s := if_pos h

theorem hostWriteBytes_of_busy {s : State} (b : HostBuf) (i : Nat) (bytes : List Byte) (h : s.busy = true) :
    hostWriteBytes b i bytes s = .next s := if_pos h

theorem hostWriteBytes_inside {s : State} {b : HostBuf} {i : Nat} {bytes : List Byte} (h : s.busy = false)
    (hi : i + bytes.length ≤ bufferCapacity b) :
    hostWriteBytes b i bytes s = .next (withBuffer s b ((bufferOf s b).writeBytes i bytes)) := by
  rw [hostWriteBytes, if_neg (by simp [h]), if_pos hi]

theorem hostWriteBytes_outside {s : State} {b : HostBuf} {i : Nat} {bytes : List Byte} (h : s.busy = false)
    (hi : ¬ i + bytes.length ≤ bufferCapacity b) : hostWriteBytes b i bytes s = .fault (.hostIndexOutOfRange b i) := by
  rw [hostWriteBytes, if_neg (by simp [h]), if_neg hi]

theorem hostReadBytes_inside {s : State} {b : HostBuf} {i n : Nat} (h : s.busy = false) (hi : i + n ≤ bufferCapacity b) :
    hostReadBytes b i n s = .next { s with rdBytes := (bufferOf s b).readBytes i n } := by
  rw [hostReadBytes, if_neg (by simp [h]), if_pos hi]

/-- A read of bytes that answers writes `rdBytes` alone. -/
theorem hostReadBytes_next {s t : State} {b : HostBuf} {i n : Nat} (h : hostReadBytes b i n s = .next t) :
    ∃ bytes, t = { s with rdBytes := bytes } := by
  unfold hostReadBytes at h
  split at h
  · exact ⟨_, (Host.Outcome.next.inj h).symm⟩
  · split at h
    · exact ⟨_, (Host.Outcome.next.inj h).symm⟩
    · cases h

/-- Settles O42: the write is `Memory.writeBytes`, whose range reads back and whose outside is untouched. -/
theorem hostBufferReadsBackWhatWasWritten : Obligations.HostBufferReadsBackWhatWasWritten := by
  intro s b i bytes hbusy hwf hi
  refine ⟨(bufferOf s b).writeBytes i bytes, hostWriteBytes_inside hbusy hi, ?_,
    fun j => Memory.read_writeBytes_outside bytes⟩
  show hostReadBytes b i bytes.length _ = _
  rw [hostReadBytes_inside (by rw [withBuffer_busy, hbusy]) hi, bufferOf_withBuffer, Memory.readBytes_writeBytes_same hwf]

/-- Settles O39: a command word goes to the sequencer while `BUSY = 0` and nowhere while `BUSY = 1`. -/
theorem cmdIsATrigger : Obligations.CmdIsATrigger := by
  intro s c
  refine ⟨fun h => ?_, fun h => ?_, rfl⟩
  · show Host.Outcome.next (hostCommand c s) = _
    rw [hostCommand_of_not_busy c h]
    rfl
  · show Host.Outcome.next (hostCommand c s) = _
    rw [hostCommand_of_busy c h]

/-! The operand registers while `BUSY = 0` (R24). -/

theorem hostWriteRegister_rounds {s : State} (v : Word) (h : s.busy = false) :
    hostWriteRegister .rounds v s = { s with rounds := v } := if_neg (by simp [h])

theorem hostWriteRegister_outlen {s : State} (v : Word) (h : s.busy = false) :
    hostWriteRegister .outlen v s = { s with outlen := v } := if_neg (by simp [h])

theorem hostWriteRegister_pwlen {s : State} (v : Word) (h : s.busy = false) :
    hostWriteRegister .pwlen v s = { s with pwlen := v } := if_neg (by simp [h])

theorem hostWriteRegister_saltlen {s : State} (v : Word) (h : s.busy = false) :
    hostWriteRegister .saltlen v s = { s with saltlen := v } := if_neg (by simp [h])

theorem hostRegister_rounds {s : State} (h : s.busy = false) : hostRegister s .rounds = s.rounds := if_neg (by simp [h])

theorem hostRegister_outlen {s : State} (h : s.busy = false) : hostRegister s .outlen = s.outlen := if_neg (by simp [h])

theorem hostRegister_pwlen {s : State} (h : s.busy = false) : hostRegister s .pwlen = s.pwlen := if_neg (by simp [h])

theorem hostRegister_saltlen {s : State} (h : s.busy = false) : hostRegister s .saltlen = s.saltlen := if_neg (by simp [h])

/-- Settles O41, register by register: a write leaves `STATUS`, and so `BUSY`, as it is, and the read then sees the value. -/
theorem hostRegistersArePlainStorage : Obligations.HostRegistersArePlainStorage := by
  intro s v h
  refine ⟨hostWriteRegister_rounds v h, hostWriteRegister_outlen v h, hostWriteRegister_pwlen v h,
    hostWriteRegister_saltlen v h, rfl, ?_⟩
  rintro r (rfl | rfl | rfl | rfl)
  · rw [hostWriteRegister_rounds v h]
    exact hostRegister_rounds h
  · rw [hostWriteRegister_outlen v h]
    exact hostRegister_outlen h
  · rw [hostWriteRegister_pwlen v h]
    exact hostRegister_pwlen h
  · rw [hostWriteRegister_saltlen v h]
    exact hostRegister_saltlen h

/-! Everything one line of a host script can do to the block. -/

/-- What one line of a host script can do to a block in state `s` (R52, R67). A line that is ignored is a read of nothing. -/
inductive HostEffect (s : State) : State → Prop where
  /-- The block is only read. -/
  | read (word : Word) (bytes : List Byte) : HostEffect s { s with rdWord := word, rdBytes := bytes }
  /-- The operand registers are written while `BUSY = 0` (R24). -/
  | writeRegisters (h : s.busy = false) (rounds outlen pwlen saltlen : Word) :
      HostEffect s { s with rounds := rounds, outlen := outlen, pwlen := pwlen, saltlen := saltlen }
  /-- Bytes inside a buffer are written while `BUSY = 0` (R28). -/
  | writeBuffer (h : s.busy = false) (b : HostBuf) (i : Nat) (bytes : List Byte)
      (hi : i + bytes.length ≤ bufferCapacity b) :
      HostEffect s (withBuffer s b ((bufferOf s b).writeBytes i bytes))
  /-- A command is issued while `BUSY = 0` (R26). -/
  | issue (h : s.busy = false) (c : BitVec 8) : HostEffect s (accept c s)
  /-- The hardware reset input (R126). -/
  | reset : HostEffect s (hardwareReset s)
  /-- The host does nothing and the sequencer makes one move. -/
  | move : HostEffect s (advance s)

/-- An access that is ignored. -/
theorem HostEffect.ignored (s : State) : HostEffect s s := .read s.rdWord s.rdBytes

theorem hostCommand_effect (c : BitVec 8) (s : State) : HostEffect s (hostCommand c s) := by
  cases h : s.busy with
  | true => rw [hostCommand_of_busy c h]; exact .ignored s
  | false => rw [hostCommand_of_not_busy c h]; exact .issue h c

theorem hostWriteRegister_effect (r : HostReg) (v : Word) (s : State) : HostEffect s (hostWriteRegister r v s) := by
  cases h : s.busy with
  | true =>
    cases r with
    | cmd => exact hostCommand_effect _ s
    | status => exact .ignored s
    | rounds | outlen | pwlen | saltlen => rw [hostWriteRegister, if_pos h]; exact .ignored s
  | false =>
    cases r with
    | cmd => exact hostCommand_effect _ s
    | status => exact .ignored s
    | rounds => rw [hostWriteRegister_rounds v h]; exact .writeRegisters h v s.outlen s.pwlen s.saltlen
    | outlen => rw [hostWriteRegister_outlen v h]; exact .writeRegisters h s.rounds v s.pwlen s.saltlen
    | pwlen => rw [hostWriteRegister_pwlen v h]; exact .writeRegisters h s.rounds s.outlen v s.saltlen
    | saltlen => rw [hostWriteRegister_saltlen v h]; exact .writeRegisters h s.rounds s.outlen s.pwlen v

theorem hostWriteBytes_effect {s t : State} {b : HostBuf} {i : Nat} {bytes : List Byte}
    (h : hostWriteBytes b i bytes s = .next t) : HostEffect s t := by
  cases hbusy : s.busy with
  | true =>
    rw [hostWriteBytes_of_busy b i bytes hbusy] at h
    cases h
    exact .ignored s
  | false =>
    by_cases hi : i + bytes.length ≤ bufferCapacity b
    · rw [hostWriteBytes_inside hbusy hi] at h
      cases h
      exact .writeBuffer hbusy b i bytes hi
    · rw [hostWriteBytes_outside hbusy hi] at h
      cases h

/-- A line that answers a next state has one of the six effects. -/
theorem hostAction_effect {a : HostAction} {s t : State} (h : hostAction a s = .next t) : HostEffect s t := by
  cases a with
  | wr r v => cases h; exact hostWriteRegister_effect r v s
  | wrb b i bytes => exact hostWriteBytes_effect h
  | cmd c => cases h; exact hostCommand_effect c s
  | wait => cases h; exact .read s.status s.rdBytes
  | rd r => cases h; exact .read (hostRegister s r) s.rdBytes
  | rdb b i n =>
    obtain ⟨bytes, rfl⟩ := hostReadBytes_next h
    exact .read s.rdWord bytes
  | reset => cases h; exact .reset
  | pause => cases h; exact .move

end Sys2Proof.Machine
end

