-- ==== Sys2Proof/Proofs/HostState.lean ====
section
/-! What the block leaves alone of the host's state: the operands that only the host writes (R24, R28, R35(b)), `OUT` from `OUTLEN`
on (R128), and the canonical form of the three buffers. Said first of each shared operation, then of every move of the sequencer
and of every presented operation. -/

namespace Sys2Proof.Machine

/-! The host's operands. -/

theorem SameHostOperands.refl (s : State) : SameHostOperands s s := ⟨rfl, rfl, rfl, rfl, rfl, rfl⟩

theorem SameHostOperands.trans {s t u : State} (h : SameHostOperands s t) (h' : SameHostOperands t u) :
    SameHostOperands s u where
  pwd := h'.pwd.trans h.pwd
  salt := h'.salt.trans h.salt
  rounds := h'.rounds.trans h.rounds
  outlen := h'.outlen.trans h.outlen
  pwlen := h'.pwlen.trans h.pwlen
  saltlen := h'.saltlen.trans h.saltlen

theorem raise_sameHostOperands (k : ErrorKind) (s : State) : SameHostOperands s (raise k s) := by
  cases k <;> exact ⟨rfl, rfl, rfl, rfl, rfl, rfl⟩

theorem checkCommand_sameHostOperands (c : BitVec 8) (s : State) : SameHostOperands s (checkCommand c s) := by
  unfold checkCommand
  split
  · split
    · exact raise_sameHostOperands .invalidArgument s
    · exact ⟨rfl, rfl, rfl, rfl, rfl, rfl⟩
  · exact raise_sameHostOperands .invalidArgument s

theorem takeDigest_sameHostOperands {store : List Byte → State → State} (g : Stage) {s : State}
    (h : ∀ m, SameHostOperands s (store m s)) : SameHostOperands s (takeDigest store g s) := by
  unfold takeDigest
  cases s.digestReq with
  | some m => exact (h m).trans ⟨rfl, rfl, rfl, rfl, rfl, rfl⟩
  | none => exact .refl s

theorem assignAcc_sameHostOperands (s : State) : SameHostOperands s (assignAcc s) := ⟨rfl, rfl, rfl, rfl, rfl, rfl⟩

theorem xorAcc_sameHostOperands (s : State) : SameHostOperands s (xorAcc s) := ⟨rfl, rfl, rfl, rfl, rfl, rfl⟩

theorem scatterAcc_sameHostOperands (s : State) : SameHostOperands s (scatterAcc s) := ⟨rfl, rfl, rfl, rfl, rfl, rfl⟩

theorem advanceHash_sameHostOperands (again : Bool) (h : HashStage) (s : State) :
    SameHostOperands s (advanceHash again h s) := by
  cases h <;> exact ⟨rfl, rfl, rfl, rfl, rfl, rfl⟩

theorem SameHostOperands.enterRound {s t : State} (h : SameHostOperands s t) (r : Nat) :
    SameHostOperands s (enterRound r t) := by
  unfold Machine.enterRound
  split <;> exact h.trans ⟨rfl, rfl, rfl, rfl, rfl, rfl⟩

theorem SameHostOperands.enterBlock {s t : State} (h : SameHostOperands s t) (b : Nat) :
    SameHostOperands s (enterBlock b t) := by
  unfold Machine.enterBlock
  split <;> exact h.trans ⟨rfl, rfl, rfl, rfl, rfl, rfl⟩

/-- No move of the sequencer writes an operand of the host. -/
theorem advance_sameHostOperands (s : State) : SameHostOperands s (advance s) := by
  unfold advance
  cases s.stage with
  | idle => exact .refl s
  | accepted c => exact checkCommand_sameHostOperands c s
  | preHashAnswer | saltDigestAnswer | reDigestAnswer =>
    exact takeDigest_sameHostOperands _ fun m => ⟨rfl, rfl, rfl, rfl, rfl, rfl⟩
  | hash again h => exact advanceHash_sameHostOperands again h s
  | accumulate again =>
    cases again with
    | false => exact (assignAcc_sameHostOperands s).enterRound 1
    | true => exact (xorAcc_sameHostOperands s).enterRound (s.rnd + 1)
  | scatter => exact (scatterAcc_sameHostOperands s).enterBlock (s.blkidx + 1)
  | preHash | blockCount | saltDigest | reDigest | erase | report => exact ⟨rfl, rfl, rfl, rfl, rfl, rfl⟩

/-! What a move does to `OUT`. -/

@[simp] theorem checkCommand_out (c : BitVec 8) (s : State) : (checkCommand c s).out = s.out := by
  unfold checkCommand
  split
  · split <;> rfl
  · rfl

theorem takeDigest_out {store : List Byte → State → State} (g : Stage) {s : State} (h : ∀ m, (store m s).out = s.out) :
    (takeDigest store g s).out = s.out := by
  unfold takeDigest
  cases s.digestReq with
  | some m => exact h m
  | none => rfl

@[simp] theorem advanceHash_out (again : Bool) (h : HashStage) (s : State) : (advanceHash again h s).out = s.out := by
  cases h <;> rfl

@[simp] theorem enterRound_out (r : Nat) (s : State) : (enterRound r s).out = s.out := by
  unfold enterRound
  split <;> rfl

@[simp] theorem enterBlock_out (b : Nat) (s : State) : (enterBlock b s).out = s.out := by
  unfold enterBlock
  split <;> rfl

/-- The scatter is the one move that writes `OUT`. -/
theorem advance_out (s : State) :
    (advance s).out = s.out ∨ s.stage = .scatter ∧ (advance s).out = scatteredOut s := by
  unfold advance
  cases s.stage with
  | scatter => exact .inr ⟨rfl, enterBlock_out _ _⟩
  | accepted c => exact .inl (checkCommand_out c s)
  | preHashAnswer | saltDigestAnswer | reDigestAnswer => exact .inl (takeDigest_out _ fun _ => rfl)
  | hash again h => exact .inl (advanceHash_out again h s)
  | accumulate again => cases again <;> exact .inl (enterRound_out _ _)
  | idle | preHash | blockCount | saltDigest | reDigest | erase | report => exact .inl rfl

/-- Every move leaves `OUT` from `OUTLEN` on alone (R128). -/
theorem advance_out_read {s : State} {d : Nat} (hd : s.outlen.toNat ≤ d) : (advance s).out.read d = s.out.read d := by
  rcases advance_out s with same | ⟨-, scattered⟩
  · rw [same]
  · rw [scattered, scatteredOut_read hd]

/-- Settles O47, from the frames of every move. -/
theorem sequencerLeavesTheHostsStateAlone : Obligations.SequencerLeavesTheHostsStateAlone :=
  fun s => ⟨advance_sameHostOperands s, advance_sameInterface s, fun _ => advance_out_read⟩

/-! The canonical form of the buffers, along moves and host lines. -/

/-- What leaves `PWD` and `SALT` alone keeps the canonical form if `OUT` keeps it. -/
theorem MemoryCanonical.of_sameHostOperands {s t : State} (h : MemoryCanonical s) (same : SameHostOperands s t)
    (hout : t.out.wf) : MemoryCanonical t where
  pwd := by rw [same.pwd]; exact h.pwd
  salt := by rw [same.salt]; exact h.salt
  out := hout

theorem MemoryCanonical.bufferOf {s : State} (h : MemoryCanonical s) (b : HostBuf) : (bufferOf s b).wf := by
  cases b with
  | pwd => exact h.pwd
  | salt => exact h.salt
  | out => exact h.out

theorem MemoryCanonical.withBuffer {s : State} (h : MemoryCanonical s) (b : HostBuf) {m : Memory} (hm : m.wf) :
    MemoryCanonical (withBuffer s b m) := by
  cases b with
  | pwd => exact ⟨hm, h.salt, h.out⟩
  | salt => exact ⟨h.pwd, hm, h.out⟩
  | out => exact ⟨h.pwd, h.salt, hm⟩

theorem MemoryCanonical.advance {s : State} (h : MemoryCanonical s) : MemoryCanonical (advance s) := by
  refine h.of_sameHostOperands (advance_sameHostOperands s) ?_
  rcases advance_out s with same | ⟨-, scattered⟩
  · rw [same]; exact h.out
  · rw [scattered]; exact scatteredOut_wf h.out

theorem hardwareReset_memoryCanonical (s : State) : MemoryCanonical (hardwareReset s) :=
  ⟨Memory.wf_nil, Memory.wf_nil, Memory.wf_nil⟩

theorem HostEffect.memoryCanonical {s t : State} (e : HostEffect s t) (h : MemoryCanonical s) : MemoryCanonical t := by
  cases e with
  | read word bytes => exact ⟨h.pwd, h.salt, h.out⟩
  | writeRegisters _ rounds outlen pwlen saltlen => exact ⟨h.pwd, h.salt, h.out⟩
  | writeBuffer _ b i bytes _ => exact h.withBuffer b (Memory.writeBytes_wf (h.bufferOf b) i bytes)
  | issue _ c => exact ⟨h.pwd, h.salt, h.out⟩
  | reset => exact hardwareReset_memoryCanonical s
  | move => exact h.advance

/-! Presented operations: the same two facts of each, the atomic `DERIVE` last. -/

theorem raise_memoryCanonical (k : ErrorKind) {s : State} (h : MemoryCanonical s) : MemoryCanonical (raise k s) :=
  h.of_sameHostOperands (raise_sameHostOperands k s) (raise_out_wf k h.out)

theorem hashEngine_memoryCanonical {s : State} (h : MemoryCanonical s) : MemoryCanonical (hashEngine s) where
  pwd := by rw [hashEngine_pwd]; exact h.pwd
  salt := by rw [hashEngine_salt]; exact h.salt
  out := by rw [hashEngine_out]; exact h.out

/-- A round of the stretching loop does not touch a buffer; the loop neither. -/
theorem stretchRounds_memoryCanonical (n r : Nat) {s : State} (h : MemoryCanonical s) :
    MemoryCanonical (stretchRounds n r s) := by
  have keeps {β : Type} (g : State → β) := stretchRounds_keeps g (n := n) (r := r) (s := s)
  constructor
  · rw [keeps State.pwd (fun _ _ _ _ _ _ _ _ _ => rfl) fun _ _ => rfl]; exact h.pwd
  · rw [keeps State.salt (fun _ _ _ _ _ _ _ _ _ => rfl) fun _ _ => rfl]; exact h.salt
  · rw [keeps State.out (fun _ _ _ _ _ _ _ _ _ => rfl) fun _ _ => rfl]; exact h.out

theorem scatterAcc_memoryCanonical {s : State} (h : MemoryCanonical s) : MemoryCanonical (scatterAcc s) :=
  ⟨h.pwd, h.salt, scatteredOut_wf h.out⟩

theorem storeSaltDigest_memoryCanonical (m : List Byte) {s : State} (h : MemoryCanonical s) :
    MemoryCanonical (storeSaltDigest m s) := ⟨h.pwd, h.salt, h.out⟩

theorem assignAcc_memoryCanonical {s : State} (h : MemoryCanonical s) : MemoryCanonical (assignAcc s) :=
  ⟨h.pwd, h.salt, h.out⟩

theorem deriveBlock_memoryCanonical {s : State} (h : MemoryCanonical s) : MemoryCanonical (deriveBlock s) := by
  have first := assignAcc_memoryCanonical
    (hashEngine_memoryCanonical (storeSaltDigest_memoryCanonical (saltMessage s) h))
  rw [deriveBlock]
  exact scatterAcc_memoryCanonical (stretchRounds_memoryCanonical _ _ first)

theorem deriveBlocks_memoryCanonical (n b : Nat) {s : State} (h : MemoryCanonical s) :
    MemoryCanonical (deriveBlocks n b s) := by
  induction n generalizing b s with
  | zero => exact h
  | succ n ih =>
    rw [deriveBlocks_succ]
    exact ih (b + 1) (deriveBlock_memoryCanonical ⟨h.pwd, h.salt, h.out⟩)

theorem derive_memoryCanonical {s : State} (h : MemoryCanonical s) : MemoryCanonical (derive s) := by
  unfold derive
  split
  · exact raise_memoryCanonical .invalidArgument h
  · have blocks := deriveBlocks_memoryCanonical (countBlocks (storePreHash (passwordBytes s) s)).blkcnt 0
      (s := countBlocks (storePreHash (passwordBytes s) s)) ⟨h.pwd, h.salt, h.out⟩
    exact ⟨blocks.pwd, blocks.salt, blocks.out⟩

/-- Every presented operation keeps the canonical form. -/
theorem exec_memoryCanonical {i : Instr} {s t : State} (h : MemoryCanonical s) (e : exec i s = .next t) :
    MemoryCanonical t := by
  cases i with
  | init | encb | zero | sha512 => cases e; exact ⟨h.pwd, h.salt, h.out⟩
  | encw | xword =>
    simp only [exec, execEncw, execXword] at e
    split at e <;> cases e
    · exact ⟨h.pwd, h.salt, h.out⟩
    · exact raise_memoryCanonical _ h
  | skey | skeysalt =>
    simp only [exec, execSkey, execSkeysalt] at e
    split at e <;> cases e
    · exact raise_memoryCanonical _ h
    · exact ⟨h.pwd, h.salt, h.out⟩
  | bhash => cases e; exact hashEngine_memoryCanonical h
  | derive =>
    simp only [exec, execDerive] at e
    split at e <;> cases e
    · exact h
    · exact derive_memoryCanonical ⟨h.pwd, h.salt, h.out⟩

/-- Settles O51: a step is a presented operation, a move, or an effect of the host, and each keeps the form. -/
theorem everyStepKeepsMemoryCanonical : Obligations.EveryStepKeepsMemoryCanonical := by
  intro s t h hstep
  rcases step_cases hstep with ⟨w, i, -, -, e⟩ | ⟨-, -, rfl⟩ | ⟨rest, -, -, -, rfl⟩ | ⟨a, rest, -, -, -, e⟩
  · exact exec_memoryCanonical (s := takePresented s) ⟨h.pwd, h.salt, h.out⟩ e
  · exact h.advance
  · exact MemoryCanonical.advance ⟨h.pwd, h.salt, h.out⟩
  · exact (hostAction_effect e).memoryCanonical ⟨h.pwd, h.salt, h.out⟩

/-- Settles O50: every buffer is empty after reset. -/
theorem memoryCanonicalAtReset : Obligations.MemoryCanonicalAtReset := ⟨Memory.wf_nil, Memory.wf_nil, Memory.wf_nil⟩

end Sys2Proof.Machine
end

