-- ==== Sys2Proof/Proofs/HostDrivenSteps.lean ====
section
/-! The invariants of a block that only its host drives (R27, R29, R35, R88, R96), kept by every step: the states in which the
internal storage is zero meet them for one reason (`HostDriven.of_erased`), and so does a running command for another
(`HostDriven.of_advance`). -/

namespace Sys2Proof.Machine

/-! `STATUS` (R27). -/

theorem statusBusy_eq : statusBusy = 0x1 := by decide

theorem statusDone_eq : statusDone = 0x2 := by decide

theorem statusError_invalidArgument : statusError .invalidArgument = 0x6 := by decide

/-- While `BUSY = 0` a block that only its host drives runs no command. -/
theorem HostDriven.idle_of_not_busy {s : State} (h : HostDriven s) (hbusy : s.busy = false) : s.stage = .idle := by
  by_contra hrun
  rw [State.busy, h.statusBusy hrun] at hbusy
  exact absurd hbusy (by decide)

/-! The internal storage (R35(e)). -/

theorem eraseInternal_internalZero (s : State) : InternalZero (eraseInternal s) :=
  ⟨rfl, rfl, rfl, rfl, rfl, rfl, rfl, rfl, rfl, rfl, rfl, rfl⟩

theorem reset_internalZero : InternalZero State.reset := ⟨rfl, rfl, rfl, rfl, rfl, rfl, rfl, rfl, rfl, rfl, rfl, rfl⟩

/-- The sequencer's position, what the host sees and the interface have no part in it. -/
theorem InternalZero.withVisible {s : State} (h : InternalZero s) {stage : Stage} {status : BitVec 32}
    {rounds outlen pwlen saltlen rdWord : Word} {digestReq : Option (List Byte)} {script : List HostAction}
    {rdBytes : List Byte} {freeCtr : Nat} {pwd salt out : Memory} :
    InternalZero { s with
      stage := stage, status := status, rounds := rounds, outlen := outlen, pwlen := pwlen, saltlen := saltlen
      rdWord := rdWord, digestReq := digestReq, script := script, rdBytes := rdBytes, freeCtr := freeCtr
      pwd := pwd, salt := salt, out := out } :=
  ⟨h.cipher, h.rb, h.kcur, h.scur, h.cdata, h.ph, h.sd, h.tmp, h.acc, h.blkcnt, h.blkidx, h.rnd⟩

theorem raise_invalidArgument_internalZero (s : State) : InternalZero (raise .invalidArgument s) :=
  (eraseInternal_internalZero (abandon s)).withVisible

theorem hardwareReset_internalZero (s : State) : InternalZero (hardwareReset s) := reset_internalZero.withVisible

theorem InternalZero.withBuffer {s : State} (h : InternalZero s) (b : HostBuf) (m : Memory) :
    InternalZero (withBuffer s b m) := by
  cases b <;> exact h.withVisible

/-! The operands past the validation (R88) and the capacities of the buffers (R28). -/

theorem OperandsValid.of_not_refused {s : State} (h : operandsRefused s = false) : OperandsValid s := by
  obtain ⟨⟨hpw, hpw'⟩, ⟨hsalt, hsalt'⟩, hrounds, hout, hout'⟩ := operandsRefused_eq_false.1 h
  exact ⟨hpw, hpw', hsalt, hsalt', hrounds, hout, hout'⟩

theorem OperandsValid.of_sameHostOperands {s t : State} (h : OperandsValid s) (same : SameHostOperands s t) :
    OperandsValid t where
  pwlen_pos := by rw [same.pwlen]; exact h.pwlen_pos
  pwlen_cap := by rw [same.pwlen]; exact h.pwlen_cap
  saltlen_pos := by rw [same.saltlen]; exact h.saltlen_pos
  saltlen_cap := by rw [same.saltlen]; exact h.saltlen_cap
  rounds_pos := by rw [same.rounds]; exact h.rounds_pos
  outlen_pos := by rw [same.outlen]; exact h.outlen_pos
  outlen_cap := by rw [same.outlen]; exact h.outlen_cap

theorem MemoryWithin.bufferOf {s : State} (h : MemoryWithin s) (b : HostBuf) :
    (bufferOf s b).within (bufferCapacity b) := by
  cases b with
  | pwd => exact h.pwd
  | salt => exact h.salt
  | out => exact h.out

theorem MemoryWithin.withBuffer {s : State} (h : MemoryWithin s) (b : HostBuf) {m : Memory}
    (hm : m.within (bufferCapacity b)) : MemoryWithin (withBuffer s b m) := by
  cases b with
  | pwd => exact ⟨hm, h.salt, h.out⟩
  | salt => exact ⟨h.pwd, hm, h.out⟩
  | out => exact ⟨h.pwd, h.salt, hm⟩

/-- A move keeps the buffers inside their capacity, because the scatter runs on a valid `OUTLEN` only. -/
theorem HostDriven.advance_within {s : State} (h : HostDriven s) : MemoryWithin (advance s) := by
  have same := advance_sameHostOperands s
  refine ⟨by rw [same.pwd]; exact h.within.pwd, by rw [same.salt]; exact h.within.salt, ?_⟩
  rcases advance_out s with unchanged | ⟨hstage, scattered⟩
  · rw [unchanged]
    exact h.within.out
  · rw [scattered]
    exact scatteredOut_within h.within.out (h.operands (by rw [hstage]; rfl)).outlen_cap

/-! Two ways to meet the invariants. -/

/-- A block with zero internal storage and a free digest port that is idle, about to report, or has just accepted a command. -/
theorem HostDriven.of_erased {t : State} (quiet : t.opSel = none) (zero : InternalZero t) (port : t.digestReq = none)
    (canonical : MemoryCanonical t) (within : MemoryWithin t)
    (statusIdle : t.stage = .idle → t.status = 0x0 ∨ t.status = 0x2 ∨ t.status = 0x6)
    (statusBusy : t.stage ≠ .idle → t.status = 0x1)
    (stage : t.stage = .idle ∨ t.stage = .report ∨ ∃ c, t.stage = .accepted c) : HostDriven t where
  quiet := quiet
  statusIdle := statusIdle
  statusBusy := statusBusy
  erased _ := zero
  port := by rcases stage with e | e | ⟨c, e⟩ <;> simp [e, port, Stage.awaitsDigest]
  operands := by rcases stage with e | e | ⟨c, e⟩ <;> simp [e, Stage.afterValidation, Stage.inBlockLoop]
  blocks := by rcases stage with e | e | ⟨c, e⟩ <;> simp [e, Stage.inBlockLoop]
  rounds := by rcases stage with e | e | ⟨c, e⟩ <;> simp [e, Stage.inRoundLoop]
  counters := by rcases stage with e | e | ⟨c, e⟩ <;> simp [e, Stage.countersInRange]
  canonical := canonical
  within := within

/-- The next state of a move to stage `g` inside a command that has valid operands and is not yet erased. The interface, the
operands and the buffers are the concern of every move; what is left is `STATUS`, the port, and the loops. -/
theorem HostDriven.of_advance {s t : State} {g : Stage} (h : HostDriven s) (e : advance s = t) (stage : t.stage = g)
    (running : g.afterValidation ∨ g = .erase) (valid : OperandsValid s) (status : t.status = 0x1)
    (port : t.digestReq.isSome = g.awaitsDigest)
    (blocks : g.inBlockLoop → t.blkcnt = ceilDiv s.outlen.toNat 32 ∧ t.blkidx < t.blkcnt)
    (rounds : g.inRoundLoop → 1 ≤ t.rnd ∧ t.rnd < s.rounds.toNat) (counters : g.countersInRange) : HostDriven t := by
  subst e stage
  have same := advance_sameHostOperands s
  exact
    { quiet := (advance_sameInterface s).opSel.trans h.quiet
      statusIdle := fun hidle => by simp [hidle, Stage.afterValidation, Stage.inBlockLoop] at running
      statusBusy := fun _ => status
      erased := fun hstage => by
        rcases hstage with e | e | ⟨c, e⟩ <;> simp [e, Stage.afterValidation, Stage.inBlockLoop] at running
      port := port
      operands := fun _ => valid.of_sameHostOperands same
      blocks := by rw [same.outlen]; exact blocks
      rounds := by rw [same.rounds]; exact rounds
      counters := counters
      canonical := h.canonical.advance
      within := h.advance_within }

/-- `t` has the `STATUS` and the loop counters of `s` (R27, R29). -/
structure SameProgress (s t : State) : Prop where
  status : t.status = s.status
  blkcnt : t.blkcnt = s.blkcnt
  blkidx : t.blkidx = s.blkidx
  rnd : t.rnd = s.rnd

theorem Stage.afterValidation_of_inBlockLoop {g : Stage} (h : g.inBlockLoop) : g.afterValidation := by
  simp [afterValidation, h]

/-- Past the validation a command runs with `STATUS = 0x1` (R27). -/
theorem HostDriven.status_of_afterValidation {s : State} (h : HostDriven s) (hs : s.stage.afterValidation) :
    s.status = 0x1 :=
  h.statusBusy fun hidle => by simp [hidle, Stage.afterValidation, Stage.inBlockLoop] at hs

/-- A move between two stages of the block loop that counts no loop on and does not enter the stretching loop. -/
theorem HostDriven.of_advance_inBlock {s t : State} {g : Stage} (h : HostDriven s) (e : advance s = t)
    (stage : t.stage = g) (same : SameProgress s t) (before : s.stage.inBlockLoop) (after : g.inBlockLoop)
    (round : g.inRoundLoop → s.stage.inRoundLoop) (port : t.digestReq.isSome = g.awaitsDigest)
    (counters : g.countersInRange) : HostDriven t := by
  have past := Stage.afterValidation_of_inBlockLoop before
  refine h.of_advance e stage (.inl (Stage.afterValidation_of_inBlockLoop after)) (h.operands past)
    (same.status.trans (h.status_of_afterValidation past)) port (fun _ => ?_) (fun hr => ?_) counters
  · rw [same.blkcnt, same.blkidx]
    exact h.blocks before
  · rw [same.rnd]
    exact h.rounds (round hr)

/-! The digest port (R96). -/

theorem HostDriven.request {s : State} (h : HostDriven s) (hs : s.stage.awaitsDigest) : ∃ m, s.digestReq = some m :=
  Option.isSome_iff_exists.1 (h.port.trans hs)

theorem HostDriven.no_request {s : State} (h : HostDriven s) (hs : s.stage.awaitsDigest = false) :
    s.digestReq.isSome = false := h.port.trans hs

theorem takeDigest_some {store : List Byte → State → State} {g : Stage} {s : State} {m : List Byte}
    (h : s.digestReq = some m) : takeDigest store g s = { store m s with digestReq := none, stage := g } := by
  rw [takeDigest, h]

/-! The moves (R87), in the order of a command. -/

theorem HostDriven.raise_invalidArgument {s : State} (h : HostDriven s) : HostDriven (raise .invalidArgument s) :=
  .of_erased h.quiet (raise_invalidArgument_internalZero s) rfl (raise_memoryCanonical _ h.canonical)
    ⟨h.within.pwd, h.within.salt, h.within.out⟩ (fun _ => .inr (.inr statusError_invalidArgument))
    (fun hrun => absurd rfl hrun) (.inl rfl)

/-- The check of the command word and of the operands (R63, R88). -/
theorem HostDriven.advance_accepted {s : State} {c : BitVec 8} (h : HostDriven s) (hs : s.stage = .accepted c) :
    HostDriven (advance s) := by
  have adv : advance s = checkCommand c s := by rw [advance, hs]
  by_cases hc : c = deriveCode
  · subst hc
    cases hop : operandsRefused s with
    | true =>
      rw [adv, checkCommand_derive_refused hop]
      exact h.raise_invalidArgument
    | false =>
      have passed := adv.trans (checkCommand_derive_valid hop)
      rw [passed]
      exact h.of_advance passed rfl (.inl rfl) (.of_not_refused hop) (h.statusBusy (by simp [hs]))
        (h.no_request (by rw [hs]; rfl)) nofun nofun rfl
  · rw [adv, checkCommand, if_neg hc]
    exact h.raise_invalidArgument

theorem HostDriven.advance_preHash {s : State} (h : HostDriven s) (hs : s.stage = .preHash) : HostDriven (advance s) := by
  have adv : advance s = sendDigest (passwordBytes s) .preHashAnswer s := by rw [advance, hs]
  have past : s.stage.afterValidation := by rw [hs]; rfl
  rw [adv]
  exact h.of_advance adv rfl (.inl rfl) (h.operands past) (h.status_of_afterValidation past) rfl nofun nofun rfl

theorem HostDriven.advance_preHashAnswer {s : State} (h : HostDriven s) (hs : s.stage = .preHashAnswer) :
    HostDriven (advance s) := by
  obtain ⟨m, hm⟩ := h.request (by rw [hs]; rfl)
  have adv : advance s = { storePreHash m s with digestReq := none, stage := .blockCount } := by
    rw [advance, hs]
    exact takeDigest_some hm
  have past : s.stage.afterValidation := by rw [hs]; rfl
  rw [adv]
  exact h.of_advance adv rfl (.inl rfl) (h.operands past) (h.status_of_afterValidation past) rfl nofun nofun rfl

/-- Step 2: a valid `OUTLEN` has at least one block, so block 0 is in range (R90). -/
theorem HostDriven.advance_blockCount {s : State} (h : HostDriven s) (hs : s.stage = .blockCount) :
    HostDriven (advance s) := by
  have adv : advance s = { countBlocks s with stage := .saltDigest } := by rw [advance, hs]
  have past : s.stage.afterValidation := by rw [hs]; rfl
  have valid := h.operands past
  have hpos : 0 < ceilDiv s.outlen.toNat Config.hlen := by
    have := valid.outlen_pos
    simp only [ceilDiv, Config.hlen]
    omega
  rw [adv]
  exact h.of_advance adv rfl (.inl rfl) valid (h.status_of_afterValidation past) (h.no_request (by rw [hs]; rfl))
    (fun _ => ⟨rfl, hpos⟩) nofun rfl

/-- Steps 3a and 3c: a message goes to the digest port. -/
theorem HostDriven.of_sendDigest {s : State} {m : List Byte} {g : Stage} (h : HostDriven s)
    (adv : advance s = sendDigest m g s) (before : s.stage.inBlockLoop) (after : g.inBlockLoop) (awaits : g.awaitsDigest)
    (round : g.inRoundLoop → s.stage.inRoundLoop) (counters : g.countersInRange) : HostDriven (advance s) := by
  rw [adv]
  exact h.of_advance_inBlock adv rfl ⟨rfl, rfl, rfl, rfl⟩ before after round awaits.symm counters

/-- Steps 3a and 3c: the digest becomes the salt input of a hash. -/
theorem HostDriven.of_takeDigest {s : State} {again : Bool} (h : HostDriven s)
    (adv : advance s = takeDigest storeSaltDigest (.hash again .init) s) (before : s.stage.inBlockLoop)
    (awaits : s.stage.awaitsDigest) (round : again → s.stage.inRoundLoop) : HostDriven (advance s) := by
  obtain ⟨m, hm⟩ := h.request awaits
  rw [takeDigest_some hm] at adv
  rw [adv]
  exact h.of_advance_inBlock adv rfl ⟨rfl, rfl, rfl, rfl⟩ before rfl round rfl rfl

theorem countersInRange_nextExpansion (again : Bool) (n : Nat) :
    (Stage.hash again (if n + 1 < Config.eksIter then .expandSalt (n + 1) else .load)).countersInRange := by
  split
  · exact decide_eq_true ‹_›
  · rfl

theorem countersInRange_nextEncryption (again : Bool) (n : Nat) :
    (Stage.hash again (if n + 1 < Config.encIter then .encrypt (n + 1) else .encode)).countersInRange := by
  split
  · exact decide_eq_true ‹_›
  · rfl

/-- One step of `BHASH` (R82): only its own two loops are counted. -/
theorem HostDriven.advance_hash {s : State} {again : Bool} {place : HashStage} (h : HostDriven s)
    (hs : s.stage = .hash again place) : HostDriven (advance s) := by
  have adv : advance s = advanceHash again place s := by rw [advance, hs]
  have before : s.stage.inBlockLoop := by rw [hs]; rfl
  have port := h.no_request (by rw [hs]; rfl)
  have counters : (Stage.hash again place).countersInRange := hs ▸ h.counters
  have round : again → s.stage.inRoundLoop := fun ha => by rw [hs]; exact ha
  rw [adv]
  cases place with
  | init | salted | load | encode =>
    exact h.of_advance_inBlock adv rfl ⟨rfl, rfl, rfl, rfl⟩ before rfl round port rfl
  | expandSalt n => exact h.of_advance_inBlock adv rfl ⟨rfl, rfl, rfl, rfl⟩ before rfl round port counters
  | expandKey n =>
    exact h.of_advance_inBlock adv rfl ⟨rfl, rfl, rfl, rfl⟩ before rfl round port (countersInRange_nextExpansion again n)
  | encrypt n =>
    exact h.of_advance_inBlock adv rfl ⟨rfl, rfl, rfl, rfl⟩ before rfl round port (countersInRange_nextEncryption again n)

/-- On to round `r` or to the scatter (R93), from a state `t` whose only news is its accumulator. -/
theorem HostDriven.of_enterRound {s t : State} {again : Bool} {r : Nat} (h : HostDriven s)
    (hs : s.stage = .accumulate again) (adv : advance s = enterRound r t) (same : SameProgress s t)
    (port : t.digestReq = s.digestReq) (operands : SameHostOperands s t) (hr : 1 ≤ r) : HostDriven (advance s) := by
  have before : s.stage.inBlockLoop := by rw [hs]; rfl
  have free : t.digestReq.isSome = false := by rw [port]; exact h.no_request (by rw [hs]; rfl)
  have past := Stage.afterValidation_of_inBlockLoop before
  by_cases hlt : r < t.rounds.toNat
  · rw [enterRound_of_lt hlt] at adv
    rw [adv]
    refine h.of_advance adv rfl (.inl rfl) (h.operands past) (same.status.trans (h.status_of_afterValidation past)) free
      (fun _ => ?_) (fun _ => ?_) rfl
    · show t.blkcnt = _ ∧ t.blkidx < t.blkcnt
      rw [same.blkcnt, same.blkidx]
      exact h.blocks before
    · rw [← operands.rounds]
      exact ⟨hr, hlt⟩
  · rw [enterRound_of_le (by omega)] at adv
    rw [adv]
    exact h.of_advance_inBlock adv rfl ⟨same.status, same.blkcnt, same.blkidx, same.rnd⟩ before rfl nofun free rfl

theorem HostDriven.advance_accumulate {s : State} {again : Bool} (h : HostDriven s) (hs : s.stage = .accumulate again) :
    HostDriven (advance s) := by
  cases again with
  | false =>
    exact h.of_enterRound (t := assignAcc s) (r := 1) hs (by rw [advance, hs]) ⟨rfl, rfl, rfl, rfl⟩ rfl
      (assignAcc_sameHostOperands s) le_rfl
  | true =>
    exact h.of_enterRound (t := xorAcc s) (r := s.rnd + 1) hs (by rw [advance, hs]) ⟨rfl, rfl, rfl, rfl⟩ rfl
      (xorAcc_sameHostOperands s) (by omega)

/-- Step 3d, then on to the next block or to the erasure (R87, R94). -/
theorem HostDriven.advance_scatter {s : State} (h : HostDriven s) (hs : s.stage = .scatter) : HostDriven (advance s) := by
  have adv : advance s = enterBlock (s.blkidx + 1) (scatterAcc s) := by rw [advance, hs]
  have before : s.stage.inBlockLoop := by rw [hs]; rfl
  have past := Stage.afterValidation_of_inBlockLoop before
  have port := h.no_request (by rw [hs]; rfl)
  obtain ⟨hcnt, -⟩ := h.blocks before
  by_cases hlt : s.blkidx + 1 < s.blkcnt
  · rw [enterBlock_of_lt (s := scatterAcc s) hlt] at adv
    rw [adv]
    exact h.of_advance adv rfl (.inl rfl) (h.operands past) (h.status_of_afterValidation past) port
      (fun _ => ⟨hcnt, hlt⟩) nofun rfl
  · rw [enterBlock_of_le (s := scatterAcc s) (Nat.le_of_not_lt hlt)] at adv
    rw [adv]
    exact h.of_advance adv rfl (.inr rfl) (h.operands past) (h.status_of_afterValidation past) port nofun nofun rfl

/-- Step 4 (R97): what is about to be reported is erased. -/
theorem HostDriven.advance_erase {s : State} (h : HostDriven s) (hs : s.stage = .erase) : HostDriven (advance s) := by
  have adv : advance s = { eraseInternal s with stage := .report } := by rw [advance, hs]
  rw [adv]
  exact .of_erased h.quiet (eraseInternal_internalZero s).withVisible (by simpa using h.no_request (by rw [hs]; rfl))
    ⟨h.canonical.pwd, h.canonical.salt, h.canonical.out⟩ ⟨h.within.pwd, h.within.salt, h.within.out⟩ nofun
    (fun _ => h.statusBusy (by simp [hs])) (.inr (.inl rfl))

/-- Completion (R95). -/
theorem HostDriven.advance_report {s : State} (h : HostDriven s) (hs : s.stage = .report) : HostDriven (advance s) := by
  have adv : advance s = reportDone s := by rw [advance, hs]
  rw [adv]
  exact .of_erased h.quiet (h.erased (.inr (.inl hs))).withVisible (by simpa using h.no_request (by rw [hs]; rfl))
    ⟨h.canonical.pwd, h.canonical.salt, h.canonical.out⟩ ⟨h.within.pwd, h.within.salt, h.within.out⟩
    (fun _ => .inr (.inl statusDone_eq)) (fun hrun => absurd rfl hrun) (.inl rfl)

/-- Every move keeps the invariants. -/
theorem HostDriven.advance {s : State} (h : HostDriven s) : HostDriven (advance s) := by
  cases hs : s.stage with
  | idle => rw [Machine.advance, hs]; exact h
  | accepted c => exact h.advance_accepted hs
  | preHash => exact h.advance_preHash hs
  | preHashAnswer => exact h.advance_preHashAnswer hs
  | blockCount => exact h.advance_blockCount hs
  | saltDigest =>
    exact h.of_sendDigest (g := .saltDigestAnswer) (by rw [Machine.advance, hs]) (by rw [hs]; rfl) rfl rfl nofun rfl
  | saltDigestAnswer =>
    exact h.of_takeDigest (again := false) (by rw [Machine.advance, hs]) (by rw [hs]; rfl) (by rw [hs]; rfl) nofun
  | hash again place => exact h.advance_hash hs
  | accumulate again => exact h.advance_accumulate hs
  | reDigest =>
    exact h.of_sendDigest (by rw [Machine.advance, hs]) (by rw [hs]; rfl) rfl rfl (fun _ => by rw [hs]; rfl) rfl
  | reDigestAnswer =>
    exact h.of_takeDigest (by rw [Machine.advance, hs]) (by rw [hs]; rfl) (by rw [hs]; rfl) fun _ => by rw [hs]; rfl
  | scatter => exact h.advance_scatter hs
  | erase => exact h.advance_erase hs
  | report => exact h.advance_report hs

/-! The host's lines. -/

/-- The script and what the host has read have no part in the invariants. -/
theorem HostDriven.withScript {s : State} (h : HostDriven s) (script : List HostAction) (word : Word)
    (bytes : List Byte) : HostDriven { s with script := script, rdWord := word, rdBytes := bytes } where
  quiet := h.quiet
  statusIdle := h.statusIdle
  statusBusy := h.statusBusy
  erased hstage := (h.erased hstage).withVisible
  port := h.port
  operands hstage := (h.operands hstage).of_sameHostOperands ⟨rfl, rfl, rfl, rfl, rfl, rfl⟩
  blocks := h.blocks
  rounds := h.rounds
  counters := h.counters
  canonical := ⟨h.canonical.pwd, h.canonical.salt, h.canonical.out⟩
  within := ⟨h.within.pwd, h.within.salt, h.within.out⟩

theorem hardwareReset_hostDriven (s : State) : HostDriven (hardwareReset s) :=
  .of_erased rfl (hardwareReset_internalZero s) rfl (hardwareReset_memoryCanonical s) ⟨nofun, nofun, nofun⟩
    (fun _ => .inl rfl) (fun hrun => absurd rfl hrun) (.inl rfl)

/-- Every line of the host keeps the invariants. The writes and the command come while `BUSY = 0`, where the block is idle and
erased. -/
theorem HostEffect.hostDriven {s t : State} (e : HostEffect s t) (h : HostDriven s) : HostDriven t := by
  have canonical := e.memoryCanonical h.canonical
  cases e with
  | read word bytes => exact h.withScript s.script word bytes
  | writeRegisters hbusy rounds outlen pwlen saltlen =>
    have hidle := h.idle_of_not_busy hbusy
    exact .of_erased h.quiet (h.erased (.inl hidle)).withVisible (h.digestReq_eq_none hidle) canonical
      ⟨h.within.pwd, h.within.salt, h.within.out⟩ h.statusIdle h.statusBusy (.inl hidle)
  | writeBuffer hbusy b i bytes hi =>
    have hidle := h.idle_of_not_busy hbusy
    refine .of_erased ?_ ((h.erased (.inl hidle)).withBuffer b _) ?_ canonical
      (h.within.withBuffer b (Memory.writeBytes_within (h.within.bufferOf b) bytes hi)) ?_ ?_ ?_
    · rw [withBuffer_opSel]; exact h.quiet
    · rw [withBuffer_digestReq]; exact h.digestReq_eq_none hidle
    · rw [withBuffer_stage, withBuffer_status]; exact h.statusIdle
    · rw [withBuffer_stage, withBuffer_status]; exact h.statusBusy
    · rw [withBuffer_stage]; exact .inl hidle
  | issue hbusy c =>
    have hidle := h.idle_of_not_busy hbusy
    exact .of_erased h.quiet (h.erased (.inl hidle)).withVisible (h.digestReq_eq_none hidle) canonical
      ⟨h.within.pwd, h.within.salt, h.within.out⟩ nofun (fun _ => statusBusy_eq) (.inr (.inr ⟨c, rfl⟩))
  | reset => exact hardwareReset_hostDriven s
  | move => exact h.advance

/-- Settles O49: with nothing presented, a step is a move of the sequencer or an effect of the host. -/
theorem everyStepKeepsHostDriven : Obligations.EveryStepKeepsHostDriven := by
  intro s t h hstep
  rcases step_cases hstep with ⟨w, i, presented, -, -⟩ | ⟨-, -, rfl⟩ | ⟨rest, -, -, -, rfl⟩ | ⟨a, rest, -, -, -, e⟩
  · rw [h.quiet] at presented
    cases presented
  · exact h.advance
  · exact (h.withScript s.script s.status s.rdBytes).advance
  · exact (hostAction_effect e).hostDriven (h.withScript rest s.rdWord s.rdBytes)

/-- Settles O45: after reset every field is zero, and a buffer that lists nothing reads 0. -/
theorem resetZeroesEverything : Obligations.ResetZeroesEverything := by
  refine ⟨reset_internalZero, rfl, rfl, rfl, rfl, rfl, rfl, rfl, Memory.read_nil, Memory.read_nil, Memory.read_nil, ?_⟩
  intro r
  cases r <;> rfl

/-- Settles O48: the state after reset is idle and erased, whatever the script. -/
theorem hostDrivenAtReset : Obligations.HostDrivenAtReset := fun script =>
  (hardwareReset_hostDriven State.reset).withScript script 0 []

/-! Runs. -/

/-- What every step keeps, every run keeps. -/
theorem run_keeps {Q : State → Prop} (hstep : ∀ s t, Q s → step s = .next t → Q t) {k : Nat} {s t : State} (h : Q s)
    (hrun : run k s = .next t) : Q t := by
  induction k generalizing s with
  | zero => cases hrun; exact h
  | succ k ih =>
    cases hs : step s with
    | next u => rw [run_next k hs] at hrun; exact ih (hstep s u h hs) hrun
    | fault r => rw [run_fault k hs] at hrun; cases hrun
    | refused r => rw [run_refused k hs] at hrun; cases hrun

/-- `STATUS` of a block that only its host drives (R27). -/
theorem HostDriven.status_legal {s : State} (h : HostDriven s) :
    s.status = 0x0 ∨ s.status = 0x1 ∨ s.status = 0x2 ∨ s.status = 0x6 := by
  by_cases hidle : s.stage = .idle
  · have := h.statusIdle hidle
    tauto
  · exact .inr (.inl (h.statusBusy hidle))

/-- Settles O52: the invariants hold along the run, and each of the four words has its fields as claimed. -/
theorem statusStaysLegal : Obligations.StatusStaysLegal := by
  intro k s t h hrun
  have legal := (run_keeps everyStepKeepsHostDriven h hrun).status_legal
  refine ⟨legal, ?_⟩
  rw [State.busy, State.done]
  rcases legal with e | e | e | e <;> rw [e] <;> decide

end Sys2Proof.Machine
end

