-- ==== Sys2Proof/Proofs/SequencerOperations.lean ====
section
/-! The moves of the sequencer against the operations of R60 that they stand for (R30, R82, R87): the meaning of each operation on
the operands of that call, and the move as its next state. -/

namespace Sys2Proof.Machine

/-! The meaning of the operations on the operands the sequencer gives them. -/

theorem exec_bhash (s : State) : exec .bhash s = .next (hashEngine s) := rfl

theorem exec_skey_sd {s : State} (h : s.ops.key = .sd) : exec .skey s = .next (hashExpandSalt s) := by
  simp [exec, execSkey, h, sourceBytes, hashExpandSalt]

theorem exec_skey_ph {s : State} (h : s.ops.key = .ph) : exec .skey s = .next (hashExpandKey s) := by
  simp [exec, execSkey, h, sourceBytes, hashExpandKey]

theorem exec_skeysalt_ph_sd {s : State} (hkey : s.ops.key = .ph) (hsalt : s.ops.salt = .sd) :
    exec .skeysalt s = .next (hashSalted s) := by
  simp [exec, execSkeysalt, hkey, hsalt, sourceBytes, hashSalted]

/-- `ENCW` on the eight words of `CDATA`, an even count (R73). -/
theorem exec_encw_cdata {s : State} (h : s.ops.words = s.cdata.toList) :
    exec .encw s = .next { s with res := { s.res with words := (encryptEight s.cipher s.cdata).toList } } := by
  have even : s.cdata.toList.length % 2 = 0 := by simp
  simp only [exec, execEncw, h, encryptWordsChecked_even even, encryptEight_toList]

/-- The answer of the digest port is the result of `SHA512` on the message that is outstanding (R96). -/
theorem exec_sha512 (s : State) :
    exec .sha512 s = .next { s with res := { s.res with digest := Config.sha512 s.ops.msg } } := rfl

/-! A stage that is known. -/

theorem State.atStage_of_stage_eq {s : State} {g : Stage} (h : s.stage = g) : s.atStage g = s := by
  subst h
  rfl

theorem advance_of_stage {s : State} {g : Stage} (h : s.stage = g) : advance s = advance (s.atStage g) := by
  rw [State.atStage_of_stage_eq h]

/-- The move that takes the digest of an outstanding message (R96). -/
theorem advance_of_answer {store : List Byte → State → State} {s : State} {g g' : Stage} {m : List Byte}
    (h : s.stage = g) (answer : advance (s.atStage g) = takeDigest store g' (s.atStage g))
    (hreq : s.digestReq = some m) : advance s = { store m (s.atStage g) with digestReq := none, stage := g' } := by
  rw [advance_of_stage h, answer]
  exact takeDigest_some hreq

/-- Settles O25, from the moves of the two fixed loops of a hash. -/
theorem hashStagesAreBhash : Obligations.HashStagesAreBhash := by
  intro s again h
  refine ⟨hashEngine s, exec_bhash s, ?_⟩
  calc iter advance 196 s
      = iter advance 196 (s.atStage (.hash again .init)) := by rw [State.atStage_of_stage_eq h]
    _ = (hashEngine s).atStage (.accumulate again) := iter_advance_hash again s

/-- Settles O26, stage by stage. -/
theorem sequencerMovesRunTheTableOperations : Obligations.SequencerMovesRunTheTableOperations := by
  intro s again n
  refine ⟨fun h => ?_, fun h hkey hsalt => ?_, fun h hkey => ?_, fun h hkey => ?_, fun h hwords => ?_, fun h => ?_,
    fun h hreq => ?_, fun h => ?_, fun h hreq => ?_, fun h => ?_, fun h hreq => ?_, fun h => ?_⟩
  · exact ⟨initCipher s, rfl, (advance_of_stage h).trans (advance_hash_init s again)⟩
  · exact ⟨hashSalted s, exec_skeysalt_ph_sd hkey hsalt, (advance_of_stage h).trans (advance_hash_salted s again)⟩
  · exact ⟨hashExpandSalt s, exec_skey_sd hkey, (advance_of_stage h).trans (advance_hash_expandSalt s again n)⟩
  · exact ⟨hashExpandKey s, exec_skey_ph hkey, (advance_of_stage h).trans (advance_hash_expandKey s again n)⟩
  · exact ⟨encryptEight s.cipher s.cdata, exec_encw_cdata hwords,
      (advance_of_stage h).trans (advance_hash_encrypt s again n)⟩
  · exact advance_of_stage h
  · exact ⟨_, exec_sha512 s, advance_of_answer h rfl hreq⟩
  · exact advance_of_stage h
  · exact ⟨_, exec_sha512 s, advance_of_answer h rfl hreq⟩
  · exact advance_of_stage h
  · exact ⟨_, exec_sha512 s, advance_of_answer h rfl hreq⟩
  · exact ⟨eraseInternal s, rfl, (advance_of_stage h).trans (advance_erase s)⟩

/-! Step 2 (R90). -/

theorem ceilDiv_hlen (n : Nat) : ceilDiv n Config.hlen = (n + 31) / 32 := rfl

/-- Settles O33: a register of 32 bits has at most 2^27 strides of 32 bytes. -/
theorem blockCountIsTheCeiling : Obligations.BlockCountIsTheCeiling := by
  intro s hpos
  have hlt := s.outlen.isLt
  simp only [countBlocks_blkcnt, ceilDiv_hlen]
  refine ⟨rfl, ?_, ?_, ?_, ?_⟩ <;> omega

end Sys2Proof.Machine
end

