-- ==== Sys2Proof/Proofs/HashByteOrder.lean ====
section
/-! The byte order at the two ends of a `BHASH` (R12, R43, R44): `MAGIC` is read big-endian in step 4, the hash is written
little-endian in step 6. -/

namespace Sys2Proof.Machine

/-! Step 4 (R43, R83). -/

theorem magicWords_getElem (j : Fin 8) : magicWords[j] = beWord magic (4 * j.val) := by
  simp [magicWords]

/-- The eight words that R43 lists. -/
theorem magicWords_eq : magicWords = #v[0x4F787963, 0x68726F6D, 0x61746963, 0x426C6F77, 0x66697368, 0x53776174,
    0x44796E61, 0x6D697465] := by
  rw [magicWords]
  decide

/-- Settles O22: step 4 writes the words of `MAGIC` to `CDATA` and nothing else. -/
theorem magicIsLoadedBigEndian : Obligations.MagicIsLoadedBigEndian := fun s =>
  ⟨magicWords_getElem, by rw [hashLoad, magicWords_eq]⟩

/-! Step 6 (R44). -/

/-- Byte `4j + k` of a hash is byte `k` of `LE32(w[j])`. -/
theorem encodeHash_getElem (w : Vector Word 8) (j : Fin 8) (k : Fin 4) :
    (encodeHash w)[4 * j.val + k.val] = (le32 w[j]).getD k.val 0 := by
  have word_index : (4 * j.val + k.val) / 4 = j.val := by omega
  have byte_index : (4 * j.val + k.val) % 4 = k.val := by omega
  simp [encodeHash, word_index, byte_index]

/-- Settles O23: the four bytes of `LE32` are the word's fields from the least significant on. -/
theorem hashIsEncodedLittleEndian : Obligations.HashIsEncodedLittleEndian := fun s j =>
  ⟨encodeHash_getElem s.cdata j 0, encodeHash_getElem s.cdata j 1, encodeHash_getElem s.cdata j 2,
    encodeHash_getElem s.cdata j 3⟩

end Sys2Proof.Machine
end

