-- ==== Sys2Proof/Proofs/BusyBlock.lean ====
section
/-! A block that runs a command: what its host can reach while `BUSY = 1` (R52), and how a host waits for `DONE = 1` (R53, R67). -/

namespace Sys2Proof.Machine

/-! Accesses while `BUSY = 1` (R52), beside `hostCommand_of_busy` and `hostWriteBytes_of_busy`. -/

theorem exec_derive_of_busy {s : State} (h : s.busy = true) : exec .derive s = .next s := by
  rw [exec, execDerive, if_pos h]

/-- Settles O29: the atomic `DERIVE` looks at `BUSY` before anything else. -/
theorem deriveWhileBusyIsIgnored : Obligations.DeriveWhileBusyIsIgnored := fun _ => exec_derive_of_busy

theorem hostWriteRegister_of_busy {s : State} (r : HostReg) (v : Word) (h : s.busy = true) :
    hostWriteRegister r v s = s := by
  cases r with
  | status => rfl
  | cmd => exact hostCommand_of_busy _ h
  | rounds | outlen | pwlen | saltlen => exact if_pos h

theorem hostRegister_of_busy {s : State} {r : HostReg} (h : s.busy = true) (hr : r ≠ .status) : hostRegister s r = 0 := by
  cases r with
  | status => exact absurd rfl hr
  | cmd => rfl
  | rounds | outlen | pwlen | saltlen => exact if_pos h

theorem hostReadBytes_of_busy {s : State} (b : HostBuf) (i n : Nat) (h : s.busy = true) :
    hostReadBytes b i n s = .next { s with rdBytes := List.replicate n 0 } := if_pos h

/-- A line put before the rest of the script is the access itself, at the block with that rest (R67). -/
theorem step_cons {s : State} {a : HostAction} (rest : List HostAction) (ho : s.opSel = none) (ha : a ≠ .wait) :
    step { s with script := a :: rest } = hostAction a { s with script := rest } :=
  step_line (s := { s with script := a :: rest }) ho rfl ha

/-- Settles O40, access by access: taking the line off the script leaves `BUSY` as it is. -/
theorem hostAccessWhileBusy : Obligations.HostAccessWhileBusy := by
  intro s rest ho hbusy
  have busy : State.busy { s with script := rest } = true := hbusy
  refine ⟨fun r v => ?_, fun b i bytes => ?_, fun c => ?_, ?_, fun r hr => ?_, fun b i n => ?_⟩ <;>
    rw [step_cons rest ho (by simp), hostAction]
  · rw [hostWriteRegister_of_busy r v busy]
  · rw [hostWriteBytes_of_busy b i bytes busy]
  · rw [hostCommand_of_busy c busy]
  · rw [hostRegister]
  · rw [hostRegister_of_busy busy hr]
  · rw [hostReadBytes_of_busy b i n busy]

/-! A host that waits (R53(b), R67): `step_line` for the line it leaves out. -/

theorem step_wait_of_done {s : State} {rest : List HostAction} (ho : s.opSel = none) (hs : s.script = .wait :: rest)
    (hdone : s.done = true) : step s = .next { s with script := rest, rdWord := s.status } := by
  simp only [step, ho, hostMove, hs, hdone, if_true, hostAction, hostRegister]

theorem step_wait_of_not_done {s : State} {rest : List HostAction} (ho : s.opSel = none) (hs : s.script = .wait :: rest)
    (hdone : s.done = false) : step s = .next (advance { s with rdWord := s.status }) := by
  simp only [step, ho, hostMove, hs, hdone, Bool.false_eq_true, if_false, hostRegister]

/-- Settles O55: with a wait next, the step turns on `DONE` alone. -/
theorem waitEndsAtDone : Obligations.WaitEndsAtDone := fun _ _ ho hs =>
  ⟨step_wait_of_done ho hs, step_wait_of_not_done ho hs⟩

end Sys2Proof.Machine
end

section
/-! Command words (`spec/30_encoding.md` R59 to R63): the decoder takes exactly the words that the encoder gives, a presented word is
run as the operation it decodes to, and a command the host may not give leaves a report in `STATUS` and nothing else. -/

namespace Sys2Proof.Machine

/-! Decoding after encoding (R59, R60). -/

/-- The laws of the ten operations as one law of all. -/
theorem roundTrip (i : Instr) : Laws.RoundTrip.Statement i :=
  match i with
  | .init => Laws.RoundTrip.init
  | .encb => Laws.RoundTrip.encb
  | .encw => Laws.RoundTrip.encw
  | .xword => Laws.RoundTrip.xword
  | .skey => Laws.RoundTrip.skey
  | .skeysalt => Laws.RoundTrip.skeysalt
  | .bhash => Laws.RoundTrip.bhash
  | .derive => Laws.RoundTrip.derive
  | .zero => Laws.RoundTrip.zero
  | .sha512 => Laws.RoundTrip.sha512

/-- Settles O1, from the law of each operation. -/
theorem decodeGivesBackEncoded : Obligations.DecodeGivesBackEncoded := fun i rest =>
  have ⟨_, _, decoded⟩ := roundTrip i
  decoded rest

/-- What follows the first byte has no part in whether it is an operation (R65). -/
theorem decodeWord_of_decode {w : BitVec 8} {i : Instr} {rest rest' : List Byte} (h : decode (w :: rest) = .ok (i, rest')) :
    decodeWord w = .ok i := by
  cases hw : decodeWord w <;> rw [decode, hw] at h <;> cases h
  rfl

theorem decodeWord_encodeWord (i : Instr) : decodeWord (encodeWord i) = .ok i :=
  decodeWord_of_decode (decodeGivesBackEncoded i [])

/-- Settles O3: each word of the table is the encoding of its operation. -/
theorem tableWordsDecode : Obligations.TableWordsDecode :=
  ⟨decodeWord_encodeWord .init, decodeWord_encodeWord .encb, decodeWord_encodeWord .encw, decodeWord_encodeWord .xword,
    decodeWord_encodeWord .skey, decodeWord_encodeWord .skeysalt, decodeWord_encodeWord .bhash,
    decodeWord_encodeWord .derive, decodeWord_encodeWord .zero, decodeWord_encodeWord .sha512⟩

/-! Encoding after decoding (R59, R60, R63). -/

/-- The two fields of R59 are the whole command word. -/
theorem zeroField_append_opField (w : BitVec 8) : zeroField w ++ opField w = w :=
  calc w.extractLsb' 4 4 ++ w.extractLsb' 0 4
      = w.extractLsb' 0 8 := BitVec.extractLsb'_append_extractLsb'_eq_extractLsb' rfl
    _ = w := BitVec.extractLsb'_eq_self

/-- R60, R63 over the sixteen values of the `op` field. -/
theorem instrOfOp_isSome_iff : ∀ op : BitVec 4, (instrOfOp op).isSome ↔ 1 ≤ op.toNat ∧ op.toNat ≤ 10 := by decide

/-- No two values of the `op` field name one operation (R60). -/
theorem opOfInstr_of_mem_instrOfOp : ∀ op : BitVec 4, ∀ i ∈ instrOfOp op, opOfInstr i = op := by decide

/-- A word that decodes, by its two fields (R59). -/
theorem decodeWord_eq_ok_iff {w : BitVec 8} {i : Instr} :
    decodeWord w = .ok i ↔ zeroField w = 0 ∧ instrOfOp (opField w) = some i := by
  by_cases hz : zeroField w = 0
  · cases ho : instrOfOp (opField w) <;> simp [decodeWord, hz, ho]
  · simp only [decodeWord, hz, if_false, false_and, reduceCtorEq]

theorem encodeWord_of_decodeWord {w : BitVec 8} {i : Instr} (h : decodeWord w = .ok i) : encodeWord i = w := by
  obtain ⟨hzero, hop⟩ := decodeWord_eq_ok_iff.1 h
  rw [encodeWord, opOfInstr_of_mem_instrOfOp _ i hop, ← hzero, zeroField_append_opField]

/-- Settles O2, field by field. -/
theorem decodeAcceptsExactlyTheAssignedWords : Obligations.DecodeAcceptsExactlyTheAssignedWords := by
  refine fun w => ⟨?_, fun i => encodeWord_of_decodeWord⟩
  calc (∃ i, decodeWord w = .ok i)
      ↔ zeroField w = 0 ∧ ∃ i, instrOfOp (opField w) = some i := by simp only [decodeWord_eq_ok_iff, exists_and_left]
    _ ↔ zeroField w = 0 ∧ 1 ≤ (opField w).toNat ∧ (opField w).toNat ≤ 10 := by
      rw [← Option.isSome_iff_exists, instrOfOp_isSome_iff]

/-! A presented operation (R61). -/

/-- Settles O4. Every operation is well-formed (R62), so that a word that decodes is all it takes. -/
theorem stepRunsThePresentedOperation : Obligations.StepRunsThePresentedOperation := fun _ _ _ hpresented hdecodes _ =>
  step_presented hpresented hdecodes

/-! A refused command (R63, R88, R106). -/

theorem operandsRefused_of_not_valid {s : State} (h : ¬ OperandsValid s) : operandsRefused s = true := by
  by_contra hpassed
  exact h (.of_not_refused (Bool.eq_false_of_not_eq_true hpassed))

/-- The check refuses every word but the one of `DERIVE`, and that one for its operands. -/
theorem checkCommand_of_refused {c : BitVec 8} {s : State} (h : c ≠ deriveCode ∨ operandsRefused s = true) :
    checkCommand c s = raise .invalidArgument s := by
  by_cases hc : c = deriveCode
  · subst hc
    exact checkCommand_derive_refused (h.resolve_left (· rfl))
  · rw [checkCommand, if_neg hc]

theorem eraseInternal_of_internalZero {s : State} (h : InternalZero s) : eraseInternal s = s := by
  cases s
  obtain ⟨rfl, rfl, rfl, rfl, rfl, rfl, rfl, rfl, rfl, rfl, rfl, rfl⟩ := h
  rfl

/-- Taking InvalidArgument overwrites all that the acceptance of the command has written. -/
theorem raise_invalidArgument_accept (c : BitVec 8) (s : State) :
    raise .invalidArgument (accept c s) = raise .invalidArgument s := rfl

theorem abandon_of_idle {s : State} (hidle : s.stage = .idle) (hport : s.digestReq = none) : abandon s = s := by
  rw [abandon, ← hidle, ← hport]

/-- In an idle block that only its host drives there is nothing to abandon and nothing to erase (R35(e), R96). -/
theorem HostDriven.raise_invalidArgument_of_idle {s : State} (h : HostDriven s) (hidle : s.stage = .idle) :
    raise .invalidArgument s = { s with status := 0x6 } := by
  rw [Machine.raise_invalidArgument, abandon_of_idle hidle (h.digestReq_eq_none hidle),
    eraseInternal_of_internalZero (h.erased (.inl hidle)), statusError_invalidArgument]

/-- Settles O44: the first step accepts the command, the second takes the error, and both write `STATUS` alone. -/
theorem errorCompletionChangesStatusOnly : Obligations.ErrorCompletionChangesStatusOnly := by
  intro s c hdriven hidle hscript hrefused
  have refused : c ≠ deriveCode ∨ operandsRefused s = true := hrefused.imp_right operandsRefused_of_not_valid
  have accepted := step_cmd_of_not_busy c hdriven.quiet hscript (hdriven.busy_eq_false hidle)
  have checked : step (accept c s) = .next (checkCommand c (accept c s)) := step_silent hdriven.quiet hscript
  calc run 2 { s with script := [.cmd c] }
      = run 1 (accept c s) := run_next 1 accepted
    _ = .next (checkCommand c (accept c s)) := run_next 0 checked
    _ = .next (raise .invalidArgument s) := by rw [checkCommand_of_refused (s := accept c s) refused, raise_invalidArgument_accept]
    _ = .next { s with status := 0x6 } := by rw [hdriven.raise_invalidArgument_of_idle hidle]

end Sys2Proof.Machine
end

section
/-! Unit `core` (`spec/40_cipher_core.md`): the meaning of `INIT`, `ENCB` and `ENCW`, and the cipher of `ENCB` as a composition of
whitenings and Feistel rounds. From these come its textbook form, its bijectivity and its value on erased tables. -/

namespace Sys2Proof.Machine

/-! The meaning of the operations (R70, R72, R73). -/

theorem exec_init (s : State) : exec .init s = .next { s with cipher := ⟨pInit, sInit⟩ } := rfl

theorem exec_encb (s : State) : exec .encb s = .next { s with res := { s.res with
    left := (encryptBlock s.cipher ⟨s.ops.left, s.ops.right⟩).L
    right := (encryptBlock s.cipher ⟨s.ops.left, s.ops.right⟩).R } } := rfl

theorem exec_encw_even {s : State} (h : s.ops.words.length % 2 = 0) :
    exec .encw s = .next { s with res := { s.res with words := encryptWords s.cipher s.ops.words } } := by
  rw [exec, execEncw, encryptWordsChecked_even h]

theorem exec_encw_odd {s : State} (h : s.ops.words.length % 2 = 1) :
    exec .encw s = .next (raise .internalInvariantViolation s) := by
  rw [exec, execEncw, encryptWordsChecked_odd h]

/-! The constants (R37, R70). -/

theorem pInit_ends : pInit[0] = 0x243F6A88 ∧ pInit[17] = 0x8979FB1B := ⟨rfl, rfl⟩

theorem sInit_ends : sInit[0][0] = 0xD1310BA6 ∧ sInit[3][255] = 0x3AC372E6 := ⟨rfl, rfl⟩

/-- Settles O6: the state is the meaning of `INIT`, the four words are read off the tables. -/
theorem initLoadsTheConstants : Obligations.InitLoadsTheConstants := fun s =>
  ⟨exec_init s, pInit_ends.1, pInit_ends.2, sInit_ends⟩

/-! InternalInvariantViolation (R107). -/

theorem statusError_internalInvariantViolation : statusError .internalInvariantViolation = 0xA := by decide

/-- Drawing the free bytes of `OUT` is all that this error adds to the erasure and the report. -/
theorem raise_violationTaken (s : State) : ViolationTaken s (raise .internalInvariantViolation s) where
  status := statusError_internalInvariantViolation
  stage := rfl
  port := rfl
  zero := (eraseInternal_internalZero (abandon s)).withVisible
  operands := ⟨rfl, rfl, rfl, rfl, rfl, rfl⟩
  interface := ⟨rfl, rfl, rfl, rfl, rfl, rfl⟩
  out _ hd := raise_out_read .internalInvariantViolation hd

/-- Settles O12: the odd count is refused before any block, and the error is taken as in a command. -/
theorem encwOddCountRaisesViolation : Obligations.EncwOddCountRaisesViolation := fun s hodd =>
  ⟨raise .internalInvariantViolation s, exec_encw_odd hodd, raise_violationTaken s⟩

/-! The words of `ENCW` (R73). -/

/-- Pair `k` of the result is the encryption of pair `k`, by the recursion over pairs. -/
theorem encryptWords_pair (c : CipherState) (ws : List Word) (k : Nat) (hk : 2 * k + 1 < ws.length) :
    (⟨(encryptWords c ws).getD (2 * k) 0, (encryptWords c ws).getD (2 * k + 1) 0⟩ : Block) =
      encryptBlock c ⟨ws.getD (2 * k) 0, ws.getD (2 * k + 1) 0⟩ := by
  fun_induction encryptWords c ws generalizing k with
  | case1 l r ws x ih =>
    cases k with
    | zero => rfl
    | succ k => exact ih k (by simp only [List.length_cons] at hk; omega)
  | case2 w => simp at hk
  | case3 => simp at hk

/-- Settles O11: an even count is encrypted pair by pair, which keeps the number of words. -/
theorem encwEncryptsEachPair : Obligations.EncwEncryptsEachPair := by
  intro s heven
  refine ⟨encryptWords s.cipher s.ops.words, exec_encw_even heven, encryptWords_length _ _, fun k hk => ?_⟩
  rw [encryptWords_length] at hk
  exact encryptWords_pair s.cipher s.ops.words k hk

/-! The two kinds of step that `ENCB` is made of. -/

/-- XOR of a key word into the left half. -/
def Block.whiten (k : Word) (h : Block) : Block := ⟨h.L ^^^ k, h.R⟩

/-- XOR of a function of the left half into the right half, then the swap of the halves. -/
def Block.feistel (g : Word → Word) (h : Block) : Block := ⟨h.R ^^^ g h.L, h.L⟩

theorem Block.whiten_involutive (k : Word) : Function.Involutive (Block.whiten k) := fun h => by
  rw [whiten, whiten, BitVec.xor_assoc, BitVec.xor_self, BitVec.xor_zero]

/-- Whatever `g` is, the half it was given is still there to undo it. -/
theorem Block.feistel_bijective (g : Word → Word) : Function.Bijective (Block.feistel g) := by
  refine Function.bijective_iff_has_inverse.2 ⟨fun h => ⟨h.R, h.L ^^^ g h.R⟩, fun h => ?_, fun h => ?_⟩ <;>
    simp only [feistel, BitVec.xor_assoc, BitVec.xor_self, BitVec.xor_zero]

theorem feistelRound_eq_feistel (c : CipherState) (i : Fin 16) (h : Block) :
    feistelRound c h i = h.feistel fun a => roundFunction c a ^^^ c.P[i.val + 1] := by
  rw [feistelRound, Block.feistel, BitVec.xor_assoc]

/-- R72: the whitening, the rounds, and a last Feistel step whose function is the constant `P[17]`. -/
theorem encryptBlock_eq_steps (c : CipherState) (x : Block) : encryptBlock c x =
    ((List.finRange 16).foldl (feistelRound c) (x.whiten c.P[0])).feistel fun _ => c.P[17] := encryptBlock_eq c x

/-! The loop form and the textbook form (R72, R74). -/

/-- Two loops over `0 .. n-1` whose states are related by `φ i` before and by `φ (i + 1)` after step `i`. -/
theorem foldl_finRange_commutes {α β : Type} {n : Nat} {f : α → Fin n → α} {g : β → Fin n → β} (φ : Fin (n + 1) → α → β)
    (hstep : ∀ i a, g (φ i.castSucc a) i = φ i.succ (f a i)) (a : α) :
    (List.finRange n).foldl g (φ 0 a) = φ (Fin.last n) ((List.finRange n).foldl f a) := by
  induction n generalizing a with
  | zero => rfl
  | succ n ih =>
    have first : g (φ 0 a) 0 = φ 1 (f a 0) := hstep 0 a
    simp only [List.finRange_succ, List.foldl_cons, List.foldl_map, first]
    exact ih (fun i => φ i.succ) (fun i => hstep i.succ) (f a 0)

/-- The half that round `i` reads is whitened with `P[i]` by the loop form in the round before, by the textbook form in the round
itself. -/
theorem feistelRound_whiten (c : CipherState) (i : Fin 16) (h : Block) :
    feistelRound c (h.whiten c.P[i.val]) i = (textbookRound c h i).whiten c.P[i.val + 1] := rfl

/-- Settles O8: the loop form runs one whitening ahead of the textbook form, and ends one ahead, with `P[16]`. -/
theorem loopFormIsTheTextbookForm : Obligations.LoopFormIsTheTextbookForm := by
  intro c x
  have rounds : (List.finRange 16).foldl (feistelRound c) (x.whiten c.P[0]) =
      ((List.finRange 16).foldl (textbookRound c) x).whiten c.P[16] :=
    foldl_finRange_commutes (fun (i : Fin 17) (h : Block) => h.whiten c.P[i.val]) (feistelRound_whiten c) x
  rw [encryptBlock_eq_steps, rounds, encryptBlockTextbook]
  rfl

/-- The round function (R71) with the four bytes written as the fields they are. -/
theorem roundFunction_eq (c : CipherState) (x : Word) : roundFunction c x =
    ((c.S[0][(x.extractLsb' 24 8).toFin] + c.S[1][(x.extractLsb' 16 8).toFin]) ^^^ c.S[2][(x.extractLsb' 8 8).toFin]) +
      c.S[3][(x.extractLsb' 0 8).toFin] := rfl

/-- Settles O7, from the equality of the two forms (O8). -/
theorem encbReturnsTheTextbookCipher : Obligations.EncbReturnsTheTextbookCipher := by
  refine ⟨fun s => ?_, roundFunction_eq⟩
  rw [exec_encb, loopFormIsTheTextbookForm]

/-! Bijectivity (R72). -/

/-- A loop of bijective steps is bijective. -/
theorem foldl_bijective {α ι : Type} {f : α → ι → α} (hf : ∀ i, Function.Bijective (f · i)) (l : List ι) :
    Function.Bijective fun a => l.foldl f a := by
  induction l with
  | nil => exact Function.bijective_id
  | cons i l ih => exact ih.comp (hf i)

theorem feistelRound_bijective (c : CipherState) (i : Fin 16) : Function.Bijective (feistelRound c · i) := by
  simp only [feistelRound_eq_feistel]
  exact Block.feistel_bijective _

/-- Settles O9: every step of `ENCB` is a bijection, whatever the tables hold. -/
theorem encbIsABijection : Obligations.EncbIsABijection := by
  intro c
  have rounds := foldl_bijective (feistelRound_bijective c) (List.finRange 16)
  have steps := (Block.feistel_bijective fun _ => c.P[17]).comp (rounds.comp (Block.whiten_involutive c.P[0]).bijective)
  simpa only [Function.comp_def, ← encryptBlock_eq_steps] using steps

/-! Erased tables (R72, R127). -/

/-- The exchange of the two halves. -/
def Block.swap (h : Block) : Block := ⟨h.R, h.L⟩

theorem Block.swap_involutive : Function.Involutive Block.swap := fun _ => rfl

theorem Block.whiten_zero (h : Block) : h.whiten 0 = h := by simp [whiten]

theorem Block.feistel_zero (h : Block) : (h.feistel fun _ => 0) = h.swap := by simp [feistel, swap]

theorem zeroes_P {i : Nat} (hi : i < 18) : CipherState.zeroes.P[i] = 0 := Vector.getElem_replicate hi

theorem sboxWord_zeroes (t : Fin 4) (k : Byte) : sboxWord CipherState.zeroes t k = 0 := by
  simp [sboxWord, CipherState.zeroes]

theorem roundFunction_zeroes (x : Word) : roundFunction CipherState.zeroes x = 0 := by
  simp [roundFunction, sboxWord_zeroes]

theorem feistelRound_zeroes (h : Block) (i : Fin 16) : feistelRound CipherState.zeroes h i = h.swap := by
  rw [feistelRound, roundFunction_zeroes, zeroes_P]
  simp [Block.swap]

/-- The sixteen swaps of the rounds cancel, and the last one stays. -/
theorem encryptBlock_zeroes (x : Block) : encryptBlock CipherState.zeroes x = x.swap := by
  have rounds (h : Block) : (List.finRange 16).foldl (feistelRound CipherState.zeroes) h = h := by
    rw [funext₂ feistelRound_zeroes, List.foldl_const, List.length_finRange, Block.swap_involutive.iterate_even (by decide),
      id]
  rw [encryptBlock_eq_steps, rounds, zeroes_P, zeroes_P, Block.feistel_zero, Block.whiten_zero]

/-- Settles O10: the cipher on zero tables is the swap of the operands. -/
theorem encbOnErasedTablesSwaps : Obligations.EncbOnErasedTablesSwaps := by
  intro s herased
  rw [exec_encb, herased, encryptBlock_zeroes, Block.swap]

end Sys2Proof.Machine
end

section
/-! Unit `ksched` (`spec/41_key_schedule.md`): the meaning of `XWORD`, `SKEY` and `SKEYSALT`. A source read circularly from its start
is followed by the cursor that a number of bytes leaves; P mixing is a loop along that cursor, and a schedule is its course, pair by
pair. -/

namespace Sys2Proof.Machine

/-! The meaning of the operations (R76, R77, R78), with and without an empty source. -/

theorem exec_xword {s : State} (h : sourceBytes s s.ops.key ≠ []) : exec .xword s = .next { s with res := { s.res with
    word := (extractWord (sourceBytes s s.ops.key) s.ops.cur).1
    cur := (extractWord (sourceBytes s s.ops.key) s.ops.cur).2 } } := by
  rw [exec, execXword, extractWordChecked, if_neg (by rwa [List.length_eq_zero_iff])]

theorem exec_xword_empty {s : State} (h : sourceBytes s s.ops.key = []) :
    exec .xword s = .next (raise .internalInvariantViolation s) := by
  rw [exec, execXword, extractWordChecked, h, List.length_nil, if_pos rfl]

theorem exec_skey {s : State} (h : sourceBytes s s.ops.key ≠ []) :
    exec .skey s = .next (scheduleKey (sourceBytes s s.ops.key) s) := by
  rw [exec, execSkey, if_neg (by rwa [List.length_eq_zero_iff])]

theorem exec_skey_empty {s : State} (h : sourceBytes s s.ops.key = []) :
    exec .skey s = .next (raise .internalInvariantViolation s) := by
  rw [exec, execSkey, if_pos (by rw [h, List.length_nil])]

theorem exec_skeysalt {s : State} (hkey : sourceBytes s s.ops.key ≠ []) (hsalt : sourceBytes s s.ops.salt ≠ []) :
    exec .skeysalt s = .next (scheduleKeySalt (sourceBytes s s.ops.key) (sourceBytes s s.ops.salt) s) := by
  rw [exec, execSkeysalt, if_neg (by simp only [List.length_eq_zero_iff, hkey, hsalt, or_self, not_false_eq_true])]

theorem exec_skeysalt_empty {s : State} (h : sourceBytes s s.ops.key = [] ∨ sourceBytes s s.ops.salt = []) :
    exec .skeysalt s = .next (raise .internalInvariantViolation s) := by
  rw [exec, execSkeysalt, if_pos (by simpa only [List.length_eq_zero_iff] using h)]

/-- Settles O15: the three operations raise on an empty source, and the error is taken as in a command. -/
theorem emptySourceRaisesViolation : Obligations.EmptySourceRaisesViolation := fun s =>
  have raised := raise_violationTaken s
  ⟨fun h => ⟨_, exec_xword_empty h, raised⟩, fun h => ⟨_, exec_skey_empty h, raised⟩,
    fun h => ⟨_, exec_skeysalt_empty h, raised⟩⟩

/-! `XWORD` from any cursor (R76). -/

theorem wrapCursor_eq_ite (len cur : Nat) : wrapCursor len cur = if cur < len then cur else 0 := by
  simp only [wrapCursor, ← Nat.not_lt, ite_not]

theorem wrapCursor_lt_length {len : Nat} (h : 0 < len) (cur : Nat) : wrapCursor len cur < len := by
  rw [wrapCursor_eq_ite]
  split <;> assumption

/-- A cursor inside the source or at its end wraps to its remainder. -/
theorem wrapCursor_of_le {len cur : Nat} (h : cur ≤ len) : wrapCursor len cur = cur % len := by
  rcases h.lt_or_eq with inside | rfl
  · rw [wrapCursor_lt inside, Nat.mod_eq_of_lt inside]
  · rw [wrapCursor, if_pos le_rfl, Nat.mod_self]

theorem extractWord_eq {B : List Byte} (hB : B ≠ []) (cur : Nat) : extractWord B cur =
    (circularWord B (wrapCursor B.length cur), (wrapCursor B.length cur + 3) % B.length + 1) :=
  have hlen := List.length_pos_of_ne_nil hB
  extractWord_from hlen (Nat.mod_eq_of_lt (wrapCursor_lt_length hlen cur)).symm

/-- Settles O13: the word and the cursor of `XWORD` from the wrapped cursor; a cursor at the end wraps to 0. -/
theorem xwordReadsCircularly : Obligations.XwordReadsCircularly := by
  rintro s B rfl hB
  have hlen := List.length_pos_of_ne_nil hB
  refine ⟨⟨_, _, rfl, rfl, Nat.succ_pos _, Nat.mod_lt _ hlen, ?_⟩, ?_⟩
  · rw [exec_xword hB, extractWord_eq hB, wrapCursor_eq_ite]
  · rw [extractWord_eq hB, extractWord_eq hB, wrapCursor_of_le le_rfl, wrapCursor_of_le (Nat.zero_le _), Nat.mod_self,
      Nat.zero_mod]

/-- Four bytes that do not run past the end are read as they stand. -/
theorem circularWord_eq_beWord {B : List Byte} {k : Nat} (h : k + 3 < B.length) : circularWord B k = beWord B k := by
  have byte {j : Nat} (hj : j ≤ k + 3) : circularByte B j = B.getD j 0 := by
    rw [circularByte, Nat.mod_eq_of_lt (by omega)]
  rw [circularWord, beWord, byte (by omega), byte (by omega), byte (by omega), byte le_rfl]

/-- Settles O14: an aligned word of an aligned source does not run past the end. -/
theorem xwordAlignedReadsBigEndianWord : Obligations.XwordAlignedReadsBigEndianWord := by
  rintro s B rfl hB hlen4 hcur4 hcur
  rw [exec_xword hB, extractWord_eq hB, wrapCursor_of_le hcur]
  generalize sourceBytes s s.ops.key = B at *
  have start_lt : s.ops.cur % B.length < B.length := Nat.mod_lt _ (List.length_pos_of_ne_nil hB)
  have start4 : s.ops.cur % B.length % 4 = 0 := by rw [Nat.mod_mod_of_dvd _ (Nat.dvd_of_mod_eq_zero hlen4), hcur4]
  have inside : s.ops.cur % B.length + 3 < B.length := by omega
  rw [circularWord_eq_beWord inside, Nat.mod_eq_of_lt inside]

/-! The cursor along one continuous circular reading (R76, R77, R78). -/

/-- The cursor after `n` bytes read circularly from cursor 0. -/
def circularCursor (len : Nat) : Nat → Nat
  | 0 => 0
  | n + 1 => n % len + 1

theorem wrapCursor_circularCursor {len : Nat} (h : 0 < len) (n : Nat) : wrapCursor len (circularCursor len n) = n % len := by
  cases n with
  | zero => exact wrapCursor_of_le (Nat.zero_le len)
  | succ n => exact wrapCursor_succ_mod h n

theorem extractWord_circularCursor {B : List Byte} (hB : B ≠ []) (n : Nat) :
    extractWord B (circularCursor B.length n) = (circularWord B n, circularCursor B.length (n + 4)) :=
  have hlen := List.length_pos_of_ne_nil hB
  extractWord_from hlen (wrapCursor_circularCursor hlen n)

/-! P mixing (R77 phase 1). -/

/-- P mixing before step `n`: the words below `n` are mixed, the others and `S` are old, and `4 * n` key bytes are read. -/
structure MixedBelow (K : List Byte) (c : CipherState) (n : Nat) (x : CipherState × Nat) : Prop where
  P : ∀ i : Fin 18, x.1.P[i] = if i.val < n then c.P[i] ^^^ circularWord K (4 * i.val) else c.P[i]
  S : x.1.S = c.S
  cursor : x.2 = circularCursor K.length (4 * n)

theorem MixedBelow.mixStep {K : List Byte} {c : CipherState} {x : CipherState × Nat} {n : Fin 18} (h : MixedBelow K c n x)
    (hK : K ≠ []) : MixedBelow K c (n + 1) (mixStep K x n) := by
  have word : extractWord K x.2 = (circularWord K (4 * n.val), circularCursor K.length (4 * n.val + 4)) := by
    rw [h.cursor, extractWord_circularCursor hK]
  refine ⟨fun i => ?_, h.S, congrArg Prod.snd word⟩
  simp only [Machine.mixStep, word, Fin.getElem_fin, Vector.getElem_set]
  have old := h.P i
  rw [Fin.getElem_fin] at old
  split
  next same =>
    obtain rfl := Fin.ext same
    rw [old, if_neg (by omega), if_pos (by omega), Fin.getElem_fin]
  next other =>
    rw [old]
    exact if_congr (by omega) rfl rfl

theorem mixKey_mixed {K : List Byte} (hK : K ≠ []) (c : CipherState) : MixedBelow K c 18 (mixKey K c) := by
  rw [mixKey]
  exact foldl_finRange_inv (mixStep K) (MixedBelow K c) (c, 0) ⟨fun _ => rfl, rfl, rfl⟩ fun _ _ h => h.mixStep hK

theorem mixKey_P {K : List Byte} (hK : K ≠ []) (c : CipherState) (i : Fin 18) :
    (mixKey K c).1.P[i] = c.P[i] ^^^ circularWord K (4 * i.val) := by
  rw [(mixKey_mixed hK c).P, if_pos i.isLt]

/-- Settles O16: the words, the tables and the cursor of P mixing after its last step. -/
theorem keyMixingXorsCircularKeyWords : Obligations.KeyMixingXorsCircularKeyWords := fun _ c hK =>
  ⟨mixKey_P hK c, (mixKey_mixed hK c).S, (mixKey_mixed hK c).cursor⟩

/-! The ends of a schedule: `RB` and the cursors (R77, R78). -/

/-- The last pair stored is the last one of `S`. -/
theorem rederive_rb (inject : Sched → Sched) (c : CipherState) (cur : Nat) : (rederive inject c cur).rb =
    ⟨(rederive inject c cur).cipher.S[3][254], (rederive inject c cur).cipher.S[3][255]⟩ := by
  have last : readSlot (scheduleCourse inject c cur 521).cipher (.s 3 127) = (scheduleCourse inject c cur 521).rb :=
    scheduleCourse_rb inject c cur scheduleSlots_last
  rw [scheduleCourse_end] at last
  exact last.symm

/-- Before pair `j` the salt has been read for `8 * j` bytes. -/
theorem scheduleCourse_cur {Sa : List Byte} (hSa : Sa ≠ []) (c : CipherState) {j : Nat} (hj : j ≤ 521) :
    (scheduleCourse (injectSalt Sa) c 0 j).cur = circularCursor Sa.length (8 * j) := by
  cases j with
  | zero => rfl
  | succ j => exact scheduleCourse_saltCursor (List.length_pos_of_ne_nil hSa) c j hj

theorem rederive_cur {Sa : List Byte} (hSa : Sa ≠ []) (c : CipherState) :
    (rederive (injectSalt Sa) c 0).cur = 4167 % Sa.length + 1 := by
  rw [← scheduleCourse_end]
  exact scheduleCourse_saltCursor (List.length_pos_of_ne_nil hSa) c 520 (by decide)

/-- Settles O17, from the ends of the schedule and of P mixing. -/
theorem skeyRewritesTheTables : Obligations.SkeyRewritesTheTables := by
  rintro s K rfl hK
  refine ⟨_, rfl, ?_⟩
  rw [exec_skey hK, scheduleKey, storeSchedule, keySchedule, ← rederive_rb, (mixKey_mixed hK s.cipher).cursor, circularCursor]

/-- Settles O18, from the same ends and that of the salt. -/
theorem skeysaltRewritesTheTables : Obligations.SkeysaltRewritesTheTables := by
  rintro s K Sa rfl rfl hK hSa
  refine ⟨_, rfl, ?_⟩
  rw [exec_skeysalt hK hSa, scheduleKeySalt, storeSaltedSchedule, saltedKeySchedule, ← rederive_rb, rederive_cur hSa,
    (mixKey_mixed hK s.cipher).cursor, circularCursor]

/-! The pairs of a schedule (R77, R78, R79). -/

theorem mem_scheduleSlots (a : Slot) : a ∈ scheduleSlots := by
  cases a <;> simp [scheduleSlots]

/-- Every slot stands at its number. -/
theorem scheduleSlots_slotNumber (a : Slot) : scheduleSlots[slotNumber a]? = some a := by
  obtain ⟨k, hk, rfl⟩ := List.mem_iff_getElem.1 (mem_scheduleSlots a)
  have number : slotNumber scheduleSlots[k] = k := by
    rw [← List.getElem_map slotNumber (h := by rwa [List.length_map])]
    simp only [scheduleSlots_map, List.getElem_range]
  rw [number, List.getElem?_eq_getElem hk]

/-- What a schedule injects into the running block is not seen in the tables. -/
theorem inject_cipher {inject : Sched → Sched} (h : inject = id ∨ ∃ Sa, inject = injectSalt Sa) (x : Sched) :
    (inject x).cipher = x.cipher := by
  obtain rfl | ⟨Sa, rfl⟩ := h
  · rfl
  · exact injectSalt_cipher Sa x

/-- A slot whose pair has had its turn holds its final words. -/
theorem scheduleCourse_read_lt {inject : Sched → Sched} (hi : ∀ x, (inject x).cipher = x.cipher) (c : CipherState) (cur : Nat)
    {i j : Nat} {slot : Slot} (h : scheduleSlots[i]? = some slot) (hij : i < j) (hj : j ≤ 521) :
    readSlot (scheduleCourse inject c cur j).cipher slot = readSlot (rederive inject c cur).cipher slot := by
  have stable := scheduleCourse_read_stable (c := c) (cur := cur) hi h
  have now := stable (j - (i + 1)) (by omega)
  have last := stable (521 - (i + 1)) (by omega)
  rw [Nat.add_sub_cancel' hij] at now
  rw [Nat.add_sub_cancel' (hij.trans_le hj), scheduleCourse_end] at last
  exact now.trans last.symm

/-- Before pair `j` the next two salt words are those at bytes `8 * j` and `8 * j + 4` of the circular reading (R78). -/
theorem injectSalt_scheduleCourse_rb {Sa : List Byte} (hSa : Sa ≠ []) (c : CipherState) {j : Nat} (hj : j ≤ 521) :
    (injectSalt Sa (scheduleCourse (injectSalt Sa) c 0 j)).rb =
      ⟨(scheduleCourse (injectSalt Sa) c 0 j).rb.L ^^^ circularWord Sa (8 * j),
        (scheduleCourse (injectSalt Sa) c 0 j).rb.R ^^^ circularWord Sa (8 * j + 4)⟩ := by
  simp only [injectSalt, scheduleCourse_cur hSa c hj, extractWord_circularCursor hSa]

/-- Settles O19: the places before and from pair `j` on, and pair `j` itself as one step of the course. -/
theorem scheduleEncryptsUnderPartialTables : Obligations.ScheduleEncryptsUnderPartialTables := by
  intro inject hinject c cur j final before
  have hi := inject_cipher hinject
  refine ⟨scheduleSlots_length, fun i => scheduleSlots_slotNumber (.p i), fun t q => scheduleSlots_slotNumber (.s t q),
    fun i slot h hij => scheduleCourse_read_lt hi c cur h hij j.isLt.le, fun i slot h => scheduleCourse_read_ge hi h j,
    ?start, ?running, ?plain, ?salted, ?pair⟩
  case start =>
    intro h0
    simp only [before, h0, scheduleCourse_zero]
  case running =>
    intro i slot h hj
    have stored := scheduleCourse_read_lt hi c cur h i.lt_add_one (by omega)
    simp only [before, final, hj, ← stored, scheduleCourse_rb inject c cur h]
  case plain =>
    rintro rfl
    rfl
  case salted =>
    rintro Sa hSa rfl rfl
    exact injectSalt_scheduleCourse_rb hSa c j.isLt.le
  case pair =>
    intro slot h
    calc readSlot final slot = readSlot (scheduleCourse inject c cur (j + 1)).cipher slot :=
          (scheduleCourse_read_lt hi c cur h j.val.lt_add_one j.isLt).symm
      _ = (pairStep inject before slot).rb := by rw [scheduleCourse_rb inject c cur h, scheduleCourse_succ inject c cur h]
      _ = encryptBlock before.cipher (inject before).rb := by rw [← hi before]; rfl

/-! What a schedule does not depend on (R77, R78). -/

theorem CipherState.eq_of_tables {c c' : CipherState} (hP : c.P = c'.P) (hS : c.S = c'.S) : c = c' := by
  cases c
  cases c'
  cases hP
  cases hS
  rfl

theorem mixKey_congr {K K' : List Byte} (hK : K ≠ []) (hK' : K' ≠ [])
    (hbytes : ∀ j, j < 72 → circularByte K j = circularByte K' j) (c : CipherState) : (mixKey K c).1 = (mixKey K' c).1 := by
  have word (i : Fin 18) : circularWord K (4 * i.val) = circularWord K' (4 * i.val) := by
    simp only [circularWord]
    rw [hbytes _ (by omega), hbytes _ (by omega), hbytes _ (by omega), hbytes _ (by omega)]
  have mixed (i : Fin 18) : (mixKey K c).1.P[i] = (mixKey K' c).1.P[i] := by rw [mixKey_P hK, mixKey_P hK', word]
  exact CipherState.eq_of_tables (Vector.ext fun i h => mixed ⟨i, h⟩) ((mixKey_mixed hK c).S.trans (mixKey_mixed hK' c).S.symm)

/-- Settles O20: after P mixing nothing of the key is left but the mixed tables. -/
theorem skeyDependsOnTheKeyExpansionOnly : Obligations.SkeyDependsOnTheKeyExpansionOnly := by
  intro s K K' hK hK' hbytes
  refine ⟨_, _, exec_skey hK, exec_skey hK', ?_⟩
  have schedule : keySchedule K s.cipher = keySchedule K' s.cipher := by
    rw [keySchedule, keySchedule, mixKey_congr hK hK' hbytes]
  exact ⟨congrArg Sched.cipher schedule, congrArg Sched.rb schedule⟩

/-- A schedule with its salt cursor put back to 0. -/
def Sched.rewind (x : Sched) : Sched := { x with cur := 0 }

/-- An injection that moves the salt cursor and nothing else is no injection. -/
theorem rederive_of_inject_keeps {inject : Sched → Sched} (hcipher : ∀ x, (inject x).cipher = x.cipher)
    (hrb : ∀ x, (inject x).rb = x.rb) (c : CipherState) :
    (rederive inject c 0).cipher = (rederive id c 0).cipher ∧ (rederive inject c 0).rb = (rederive id c 0).rb := by
  have pair (x : Sched) (slot : Slot) : pairStep id x.rewind slot = (pairStep inject x slot).rewind := by
    simp only [pairStep, Sched.rewind, id, hcipher, hrb]
  have course : rederive id c 0 = (rederive inject c 0).rewind := by
    unfold rederive
    exact List.foldl_hom Sched.rewind pair (l := scheduleSlots) (init := ⟨c, ⟨0, 0⟩, 0⟩)
  rw [course]
  exact ⟨rfl, rfl⟩

theorem circularWord_zeros (n k : Nat) : circularWord (List.replicate n 0) k = 0 := by
  have byte (j : Nat) : circularByte (List.replicate n 0) j = 0 := by
    simp [circularByte]
  simp only [circularWord, byte]
  rfl

theorem injectSalt_zeros_rb (n : Nat) (x : Sched) : (injectSalt (List.replicate (n + 1) 0) x).rb = x.rb := by
  have word (cur : Nat) : (extractWord (List.replicate (n + 1) 0) cur).1 = 0#32 := by
    rw [extractWord_eq (by simp), circularWord_zeros]
    rfl
  simp only [injectSalt, word, BitVec.xor_zero]

/-- Settles O21: XOR with zero words changes no running block. -/
theorem skeysaltWithZeroSaltIsSkey : Obligations.SkeysaltWithZeroSaltIsSkey := by
  intro s n hK hzeros
  have hSa : sourceBytes s s.ops.salt ≠ [] := by simp [hzeros]
  refine ⟨_, _, exec_skeysalt hK hSa, exec_skey hK, ?_⟩
  have ⟨cipher, rb⟩ := rederive_of_inject_keeps (injectSalt_cipher _) (injectSalt_zeros_rb n)
    (mixKey (sourceBytes s s.ops.key) s.cipher).1
  rw [hzeros]
  exact ⟨cipher, rb, rfl⟩

end Sys2Proof.Machine
end

section
/-! Unit `bhash` (`spec/42_hash_engine.md`): the closed form of `BHASH`. Steps 1 to 3 of R82 are a course over the tables alone, seen
through the state that a schedule leaves; step 5 is a course over `CDATA` alone under the tables step 3 ended in. -/

namespace Sys2Proof.Machine

theorem iter_eq_iterate {α : Type} (f : α → α) (n : Nat) (a : α) : iter f n a = f^[n] a := by
  induction n generalizing a with
  | zero => exact iter_zero f a
  | succ n ih => rw [iter_succ, ih, Function.iterate_succ_apply]

/-- A loop over a state whose step is a step on one part of it is the loop over that part. -/
theorem iter_semiconj {α β : Type} {φ : α → β} {g : α → α} {f : β → β} (h : Function.Semiconj φ g f) (n : Nat) (a : α) :
    iter f n (φ a) = φ (iter g n a) := by
  rw [iter_eq_iterate, iter_eq_iterate, (h.iterate_right n).eq]

/-! Steps 1 to 3: the tables (R82, R85). -/

/-- The state with the tables `c` and what a schedule of 64-byte operands leaves beside them: the last pair stored in `RB`, and both
cursors at 8, the place behind 72 and behind 4168 bytes read circularly (R77, R78). -/
def State.withTables (s : State) (c : CipherState) : State :=
  { s with cipher := c, rb := ⟨c.S[3][254], c.S[3][255]⟩, kcur := 8, scur := 8 }

theorem mixKey_cursor_digest (K : Vector Byte 64) (c : CipherState) : (mixKey K.toList c).2 = 8 := by
  have nonempty : K.toList ≠ [] := List.ne_nil_of_length_pos (by simp)
  rw [(mixKey_mixed nonempty c).cursor, Vector.length_toList, circularCursor]

theorem saltedKeySchedule_cur_digest (K : List Byte) (Sa : Vector Byte 64) (c : CipherState) :
    (saltedKeySchedule K Sa.toList c).cur = 8 := by
  have nonempty : Sa.toList ≠ [] := List.ne_nil_of_length_pos (by simp)
  rw [saltedKeySchedule, rederive_cur nonempty, Vector.length_toList]

theorem hashSalted_eq_withTables (s : State) :
    hashSalted s = s.withTables (saltedKeySchedule s.ph.toList s.sd.toList s.cipher).cipher := by
  rw [hashSalted, scheduleKeySalt, storeSaltedSchedule, sourceBytes_ph, sourceBytes_sd, mixKey_cursor_digest,
    saltedKeySchedule_cur_digest, State.withTables, saltedKeySchedule, rederive_rb]

theorem scheduleKey_withTables (K : Vector Byte 64) (s : State) (c : CipherState) :
    scheduleKey K.toList (s.withTables c) = s.withTables (keySchedule K.toList c).cipher := by
  rw [scheduleKey, storeSchedule, mixKey_cursor_digest, keySchedule, rederive_rb]
  rfl

theorem hashExpandSalt_semiconj (s : State) :
    Function.Semiconj s.withTables (fun c => (keySchedule s.sd.toList c).cipher) hashExpandSalt :=
  fun c => (scheduleKey_withTables s.sd s c).symm

theorem hashExpandKey_semiconj (s : State) :
    Function.Semiconj s.withTables (fun c => (keySchedule s.ph.toList c).cipher) hashExpandKey :=
  fun c => (scheduleKey_withTables s.ph s c).symm

/-- Steps 1 to 3: a round of step 3, its two halves one after the other, is `EXP` of R151 on the tables. -/
theorem hashExpanded_eq_withTables (s : State) :
    iter (fun x => hashExpandKey (hashExpandSalt x)) Config.eksIter (hashSalted (initCipher s)) =
      s.withTables (expandedCipher s.ph s.sd) := by
  rw [hashSalted_eq_withTables]
  exact iter_semiconj ((hashExpandKey_semiconj s).comp_right (hashExpandSalt_semiconj s)) 64 _

/-! Steps 4 and 5: `CDATA` (R82, R85). -/

/-- The state with the words `w` in `CDATA`. -/
def State.withCdata (s : State) (w : Vector Word 8) : State := { s with cdata := w }

theorem hashEncrypt_semiconj (s : State) : Function.Semiconj s.withCdata (encryptEight s.cipher) hashEncrypt := fun _ => rfl

theorem hashEncrypted_eq_withCdata (s : State) :
    iter hashEncrypt Config.encIter (hashLoad s) = s.withCdata (iter (encryptEight s.cipher) 64 magicWords) :=
  iter_semiconj (hashEncrypt_semiconj s) 64 magicWords

/-- Settles O24: the tables of step 3, `CDATA` of step 5 under them, and its encoding in step 6. -/
theorem bhashIsAFunctionOfItsOperands : Obligations.BhashIsAFunctionOfItsOperands := by
  intro s
  rw [exec_bhash, hashEngine, hashExpanded_eq_withTables, hashEncrypted_eq_withCdata]
  rfl

end Sys2Proof.Machine
end

section
/-! Unit `pbkdf` (`spec/43_pbkdf_driver.md`): the closed form of `DERIVE`. A round of the stretching loop is one link of the chain
of R151, the scatter writes the indices that are `BLKIDX` modulo `BLKCNT`, and so each block writes its own residue class of `OUT`,
in whatever order the blocks come. -/

namespace Sys2Proof.Machine

/-! What the computation of `DERIVE` leaves alone. -/

/-- All of the state but the internal storage and `OUT`. -/
def State.frame (s : State) : State := { eraseInternal s with out := [] }

theorem SameHostOperands.of_frame {s t : State} (h : t.frame = s.frame) : SameHostOperands s t := by
  have same : SameHostOperands s s.frame := ⟨rfl, rfl, rfl, rfl, rfl, rfl⟩
  rw [← h] at same
  exact ⟨same.pwd, same.salt, same.rounds, same.outlen, same.pwlen, same.saltlen⟩

theorem stretchRound_frame (s : State) : (stretchRound s).frame = s.frame :=
  stretchRound_keeps State.frame (fun _ _ _ _ _ _ _ _ _ => rfl) s

theorem deriveBlock_frame (s : State) : (deriveBlock s).frame = s.frame :=
  deriveBlock_keeps State.frame (fun _ _ _ _ _ _ _ _ _ => rfl) (fun _ _ => rfl) (fun _ _ => rfl) s

theorem deriveBlock_outlen (s : State) : (deriveBlock s).outlen = s.outlen :=
  (SameHostOperands.of_frame (deriveBlock_frame s)).outlen

theorem deriveBlocks_frame (n b : Nat) (s : State) : (deriveBlocks n b s).frame = s.frame :=
  deriveBlocks_keeps State.frame (fun _ _ _ _ _ _ _ _ _ => rfl) (fun _ _ => rfl) (fun _ _ => rfl) (fun _ _ => rfl) n b s

/-! A round of the stretching loop (R93). -/

/-- The hash of `BHASH` is `bhash` of R151. -/
theorem hashEngine_tmp (s : State) : (hashEngine s).tmp = bcryptHash s.ph s.sd :=
  congrArg State.tmp (Host.Outcome.next.inj (bhashIsAFunctionOfItsOperands s))

theorem stretchRound_tmp (s : State) : (stretchRound s).tmp = bcryptHash s.ph (Config.sha512 s.tmp.toList) := by
  rw [stretchRound, xorAcc_tmp, hashEngine_tmp, storeSaltDigest_ph, storeSaltDigest_sd, hashMessage]

theorem stretchRound_acc (s : State) :
    (stretchRound s).acc = Vector.zipWith (· ^^^ ·) s.acc (stretchRound s).tmp := by
  rw [stretchRound, xorAcc_acc, xorAcc_tmp, hashEngine_acc, storeSaltDigest_acc]

theorem stretchRound_ph (s : State) : (stretchRound s).ph = s.ph :=
  stretchRound_keeps State.ph (fun _ _ _ _ _ _ _ _ _ => rfl) s

theorem stretchRound_out (s : State) : (stretchRound s).out = s.out :=
  stretchRound_keeps State.out (fun _ _ _ _ _ _ _ _ _ => rfl) s

/-- Settles O35: the hash and the XOR of the round, byte by byte, and its frame. -/
theorem stretchRoundChainsThePreviousHash : Obligations.StretchRoundChainsThePreviousHash := by
  intro s
  refine ⟨stretchRound_tmp s, fun i => ?_, stretchRound_ph s, stretchRound_out s, .of_frame (stretchRound_frame s)⟩
  rw [stretchRound_acc, Fin.getElem_fin, Vector.getElem_zipWith]
  rfl

/-! The chain of one block (R91 to R93, R151). -/

/-- `s` stands at link `k` of the chain of block `b`: the latest hash in `TMP`, the XOR of all hashes so far in `ACC`. -/
structure OnChain (pre : Vector Byte 64) (salt : List Byte) (b k : Nat) (s : State) : Prop where
  ph : s.ph = pre
  tmp : s.tmp = chainHash pre salt b k
  acc : s.acc = chainXor pre salt b k

/-- Steps 3a and 3b. -/
def firstHash (s : State) : State := assignAcc (hashEngine (storeSaltDigest (saltMessage s) s))

/-- The chain starts at the digest of the salt and the block counter. -/
theorem firstHash_onChain (s : State) : OnChain s.ph (saltBytes s) s.blkidx 0 (firstHash s) := by
  have hash : (hashEngine (storeSaltDigest (saltMessage s) s)).tmp = chainHash s.ph (saltBytes s) s.blkidx 0 := by
    rw [hashEngine_tmp, storeSaltDigest_ph, storeSaltDigest_sd, saltMessage, chainHash]
  constructor
  · rw [firstHash, assignAcc_ph, hashEngine_ph, storeSaltDigest_ph]
  · rw [firstHash, assignAcc_tmp, hash]
  · rw [firstHash, assignAcc_acc, hash, chainXor]

section
variable {pre : Vector Byte 64} {salt : List Byte} {b k : Nat} {s : State}

/-- A round is the next link. -/
theorem OnChain.stretchRound (h : OnChain pre salt b k s) : OnChain pre salt b (k + 1) (stretchRound s) := by
  have next : (Machine.stretchRound s).tmp = chainHash pre salt b (k + 1) := by
    rw [stretchRound_tmp, h.ph, h.tmp, chainHash]
  refine ⟨(stretchRound_ph s).trans h.ph, next, ?_⟩
  rw [stretchRound_acc, next, h.acc, chainXor]

theorem OnChain.stretchRounds (h : OnChain pre salt b k s) (n r : Nat) : OnChain pre salt b (k + n) (stretchRounds n r s) := by
  induction n generalizing k r s with
  | zero => exact h
  | succ n ih =>
    have counted : OnChain pre salt b k { s with rnd := r } := ⟨h.ph, h.tmp, h.acc⟩
    rw [stretchRounds_succ, Nat.add_comm n 1, ← Nat.add_assoc]
    exact ih counted.stretchRound (r + 1)

end

/-! The scatter (R94). -/

/-- With `BLKIDX < BLKCNT`, the index `i * BLKCNT + BLKIDX` has the quotient `i` and the remainder `BLKIDX`. -/
theorem eq_mul_add_iff {n b i d : Nat} (h : b < n) : d = i * n + b ↔ d % n = b ∧ d / n = i := by
  rw [and_comm, Nat.div_mod_unique (by omega), Nat.mul_comm i n, Nat.add_comm b]
  exact ⟨fun e => ⟨e.symm, h⟩, fun e => e.1.symm⟩

/-- `OUT` before write `k` of the scatter: the places with quotient below `k` hold their byte of `ACC`. -/
structure ScatteredBelow (s : State) (k : Nat) (m : Memory) : Prop where
  wf : m.wf
  read : ∀ d, m.read d = if (d % s.blkcnt = s.blkidx ∧ d / s.blkcnt < k) ∧ d < s.outlen.toNat then
    s.acc.toList.getD (d / s.blkcnt) 0 else s.out.read d

theorem ScatteredBelow.scatterByte {s : State} {i : Fin 32} {m : Memory} (h : ScatteredBelow s i m)
    (hb : s.blkidx < s.blkcnt) : ScatteredBelow s (i + 1) (scatterByte s m i) := by
  refine ⟨scatterByte_wf h.wf i, fun d => ?_⟩
  rw [scatterByte_read h.wf, h.read]
  simp only [eq_mul_add_iff hb]
  split
  next now =>
    obtain ⟨⟨hmod, hdiv⟩, hlt⟩ := now
    rw [if_pos ⟨⟨hmod, by omega⟩, hlt⟩, hdiv]
    simp
  next other => exact if_congr (by omega) rfl rfl

theorem scatteredOut_below {s : State} (hwf : s.out.wf) (hb : s.blkidx < s.blkcnt) :
    ScatteredBelow s 32 (scatteredOut s) := by
  rw [scatteredOut_eq]
  exact foldl_finRange_inv (scatterByte s) (ScatteredBelow s) s.out ⟨hwf, fun _ => by simp⟩
    fun _ _ h => h.scatterByte hb

/-- Settles O34: the written places are those with remainder `BLKIDX`, a quotient below 32, and below `OUTLEN`. -/
theorem scatterPlacesEachByte : Obligations.ScatterPlacesEachByte := by
  intro s hwf hb
  have scattered := (scatteredOut_below hwf hb).read
  refine ⟨rfl, fun i hlt => ?_, fun d hout => ?_⟩
  · obtain ⟨hmod, hdiv⟩ := (eq_mul_add_iff hb).1 (rfl : i.val * s.blkcnt + s.blkidx = _)
    rw [scatterAcc_out, scattered, if_pos ⟨⟨hmod, by omega⟩, hlt⟩, hdiv]
    simp
  · rw [scatterAcc_out, scattered, if_neg]
    rintro ⟨⟨hmod, hdiv⟩, hlt⟩
    have := hout ⟨d / s.blkcnt, hdiv⟩ ((eq_mul_add_iff hb).2 ⟨hmod, rfl⟩)
    omega

/-! One block (R91 to R94). -/

/-- Steps 3a to 3c: the whole chain of a block. -/
def chained (s : State) : State := stretchRounds (s.rounds.toNat - 1) 1 (firstHash s)

theorem deriveBlock_eq (s : State) : deriveBlock s = scatterAcc (chained s) := by
  rw [deriveBlock, chained, firstHash, assignAcc_rounds, hashEngine_rounds, storeSaltDigest_rounds]

theorem chained_acc (s : State) : (chained s).acc = chainXor s.ph (saltBytes s) s.blkidx (s.rounds.toNat - 1) := by
  have last := ((firstHash_onChain s).stretchRounds (s.rounds.toNat - 1) 1).acc
  rwa [Nat.zero_add] at last

theorem chained_out (s : State) : (chained s).out = s.out := by
  rw [chained, stretchRounds_keeps State.out (fun _ _ _ _ _ _ _ _ _ => rfl) (fun _ _ => rfl), firstHash, assignAcc_out,
    hashEngine_out, storeSaltDigest_out]

theorem chained_outlen (s : State) : (chained s).outlen = s.outlen := by
  rw [← scatterAcc_outlen, ← deriveBlock_eq, deriveBlock_outlen]

theorem chained_blkcnt (s : State) : (chained s).blkcnt = s.blkcnt := by
  rw [← scatterAcc_blkcnt, ← deriveBlock_eq, deriveBlock_blkcnt]

theorem chained_blkidx (s : State) : (chained s).blkidx = s.blkidx := by
  rw [chained, stretchRounds_blkidx, firstHash, assignAcc_blkidx, hashEngine_blkidx, storeSaltDigest_blkidx]

/-- Inside the block loop: `OUT` is in canonical form, and the blocks cover the output (R90). -/
structure BlocksCover (s : State) : Prop where
  wf : s.out.wf
  cover : s.outlen.toNat ≤ 32 * s.blkcnt

/-- The byte of R151 at index `d`, from the password digest and the block count of a state inside the block loop. -/
def State.closedByte (s : State) (d : Nat) : Byte :=
  (chainXor s.ph (saltBytes s) (d % s.blkcnt) (s.rounds.toNat - 1)).toList.getD (d / s.blkcnt) 0

theorem deriveBlock_closedByte (s : State) (d : Nat) : (deriveBlock s).closedByte d = s.closedByte d :=
  deriveBlock_keeps (State.closedByte · d) (fun _ _ _ _ _ _ _ _ _ => rfl) (fun _ _ => rfl) (fun _ _ => rfl) s

theorem BlocksCover.deriveBlock {s : State} (h : BlocksCover s) : BlocksCover (deriveBlock s) where
  wf := by
    rw [deriveBlock_eq, scatterAcc_out]
    exact scatteredOut_wf (by rw [chained_out]; exact h.wf)
  cover := by
    rw [deriveBlock_outlen, deriveBlock_blkcnt]
    exact h.cover

/-- A block writes the indices below `OUTLEN` that are `BLKIDX` modulo `BLKCNT`. -/
theorem BlocksCover.deriveBlock_read {s : State} (h : BlocksCover s) (hb : s.blkidx < s.blkcnt) (d : Nat) :
    (Machine.deriveBlock s).out.read d =
      if d % s.blkcnt = s.blkidx ∧ d < s.outlen.toNat then s.closedByte d else s.out.read d := by
  have scattered : ScatteredBelow (chained s) 32 (scatteredOut (chained s)) :=
    scatteredOut_below (by rw [chained_out]; exact h.wf) (by rw [chained_blkidx, chained_blkcnt]; exact hb)
  have quotient (hlt : d < s.outlen.toNat) : d / s.blkcnt < 32 :=
    Nat.div_lt_of_lt_mul (by rw [Nat.mul_comm]; exact hlt.trans_le h.cover)
  rw [deriveBlock_eq, scatterAcc_out, scattered.read]
  simp only [chained_acc, chained_out, chained_outlen, chained_blkcnt, chained_blkidx]
  split
  next written =>
    obtain ⟨⟨hmod, -⟩, hlt⟩ := written
    rw [if_pos ⟨hmod, hlt⟩, State.closedByte, hmod]
  next kept => rw [if_neg fun ⟨hmod, hlt⟩ => kept ⟨⟨hmod, quotient hlt⟩, hlt⟩]

/-! The block loop (R87 step 3, R98). -/

theorem deriveInOrder_cons (b : Nat) (l : List Nat) (s : State) :
    deriveInOrder (b :: l) s = deriveInOrder l (deriveBlock { s with blkidx := b }) := rfl

theorem deriveBlocks_eq_deriveInOrder (n b : Nat) (s : State) : deriveBlocks n b s = deriveInOrder (List.range' b n) s := by
  induction n generalizing b s with
  | zero => rfl
  | succ n ih => rw [deriveBlocks_succ, ih, List.range'_succ, deriveInOrder_cons]

/-- Blocks in any order write the indices below `OUTLEN` whose remainder is one of theirs. -/
theorem BlocksCover.deriveInOrder_read {s : State} (h : BlocksCover s) {l : List Nat} (hl : ∀ b ∈ l, b < s.blkcnt) (d : Nat) :
    (deriveInOrder l s).out.read d =
      if d % s.blkcnt ∈ l ∧ d < s.outlen.toNat then s.closedByte d else s.out.read d := by
  induction l generalizing s with
  | nil => rw [if_neg (by simp)]; rfl
  | cons b l ih =>
    obtain ⟨hb, hrest⟩ := List.forall_mem_cons.1 hl
    have at_b : BlocksCover { s with blkidx := b } := ⟨h.wf, h.cover⟩
    have block := at_b.deriveBlock_read hb d
    have blocks := ih at_b.deriveBlock (by rw [deriveBlock_blkcnt]; exact hrest)
    rw [deriveBlock_blkcnt, deriveBlock_outlen, deriveBlock_closedByte, block] at blocks
    rw [deriveInOrder_cons, blocks]
    simp only [List.mem_cons]
    split
    next later => rw [if_pos ⟨.inr later.1, later.2⟩]; rfl
    next first => exact if_congr (by tauto) rfl rfl

/-- The block loop writes every index below `OUTLEN`. -/
theorem BlocksCover.deriveBlocks_read {s : State} (h : BlocksCover s) (d : Nat) :
    (deriveBlocks s.blkcnt 0 s).out.read d = if d < s.outlen.toNat then s.closedByte d else s.out.read d := by
  rw [deriveBlocks_eq_deriveInOrder, ← List.range_eq_range', h.deriveInOrder_read fun b => List.mem_range.1]
  refine if_congr ⟨And.right, fun hlt => ⟨List.mem_range.2 (Nat.mod_lt d ?_), hlt⟩⟩ rfl rfl
  have := h.cover
  omega

/-- Settles O32: which remainders are written does not depend on the order of the blocks. -/
theorem blockOrderDoesNotMatter : Obligations.BlockOrderDoesNotMatter := by
  intro s l hwf hcnt hperm d
  have cover : BlocksCover s := ⟨hwf, by omega⟩
  rw [deriveBlocks_eq_deriveInOrder, ← List.range_eq_range', cover.deriveInOrder_read fun b => List.mem_range.1,
    cover.deriveInOrder_read fun b hb => List.mem_range.1 (hperm.mem_iff.1 hb)]
  exact if_congr (by rw [hperm.mem_iff]) rfl rfl

/-! The whole command (R87). -/

/-- Steps 1 and 2: the state in which the block loop starts. -/
def loopEntry (s : State) : State := countBlocks (storePreHash (passwordBytes s) s)

theorem loopEntry_cover {s : State} (h : s.out.wf) : BlocksCover (loopEntry s) :=
  ⟨h, by simp only [loopEntry, countBlocks_blkcnt, countBlocks_outlen, ceilDiv_hlen]; omega⟩

/-- The closed form of R151 is what the block loop makes of the operands of `DERIVE`. -/
theorem loopEntry_closedByte (s : State) (d : Nat) : (loopEntry s).closedByte d =
    derivedByte (passwordBytes s) (saltBytes s) s.rounds.toNat s.outlen.toNat d := rfl

/-- A `DERIVE` that is not refused erases the internal storage, reports `DONE`, and writes nothing else but `OUT`. -/
theorem deriveAll_eq (s : State) : deriveAll s = { eraseInternal s with
    status := statusDone, stage := .idle, out := (deriveBlocks (loopEntry s).blkcnt 0 (loopEntry s)).out } := by
  have same : (deriveBlocks (loopEntry s).blkcnt 0 (loopEntry s)).frame = s.frame := deriveBlocks_frame _ 0 _
  exact congrArg (fun t : State => { t with
    status := statusDone, stage := .idle, out := (deriveBlocks (loopEntry s).blkcnt 0 (loopEntry s)).out }) same

theorem operandsRefused_of_valid {s : State} (h : OperandsValid s) : operandsRefused s = false :=
  operandsRefused_eq_false.2 ⟨⟨h.pwlen_pos, h.pwlen_cap⟩, ⟨h.saltlen_pos, h.saltlen_cap⟩, h.rounds_pos,
    h.outlen_pos, h.outlen_cap⟩

theorem derive_of_valid {s : State} (h : OperandsValid s) : derive s = deriveAll s :=
  if_neg (by simp [operandsRefused_of_valid h])

theorem derive_of_not_valid {s : State} (h : ¬ OperandsValid s) : derive s = raise .invalidArgument s :=
  if_pos (operandsRefused_of_not_valid h)

/-- Settles O27: the whole next state, with the bytes that the block loop has written. -/
theorem deriveWritesTheClosedForm : Obligations.DeriveWritesTheClosedForm := by
  intro s hbusy hvalid hwf
  have valid : OperandsValid (accept deriveCode s) := hvalid.of_sameHostOperands ⟨rfl, rfl, rfl, rfl, rfl, rfl⟩
  have written := (loopEntry_cover (s := accept deriveCode s) hwf).deriveBlocks_read
  refine ⟨_, exec_derive_of_not_busy hbusy, ?_⟩
  rw [derive_of_valid valid, deriveAll_eq]
  exact ⟨fun d hd => (written d).trans (if_pos hd), fun d hd => (written d).trans (if_neg (Nat.not_lt.2 hd)),
    statusDone_eq, rfl, rfl, rfl, (eraseInternal_internalZero _).withVisible, ⟨rfl, rfl, rfl, rfl, rfl, rfl⟩,
    ⟨rfl, rfl, rfl, rfl, rfl, rfl⟩⟩

/-- Settles O28: taking InvalidArgument overwrites the acceptance and leaves `OUT` and the operands. -/
theorem deriveRefusesInvalidOperands : Obligations.DeriveRefusesInvalidOperands := by
  intro s hbusy hinvalid
  have invalid : ¬ OperandsValid (accept deriveCode s) :=
    fun h => hinvalid (h.of_sameHostOperands ⟨rfl, rfl, rfl, rfl, rfl, rfl⟩)
  refine ⟨raise .invalidArgument s, ?_, raise_invalidArgument_internalZero s, ?_⟩
  · rw [exec_derive_of_not_busy hbusy, derive_of_not_valid invalid, raise_invalidArgument_accept]
  · rw [raise_invalidArgument, statusError_invalidArgument]
    rfl

/-- Settles O30: both outputs are the closed form of the same operands. -/
theorem deriveDependsOnItsOperandsOnly : Obligations.DeriveDependsOnItsOperandsOnly := by
  intro s s' hbusy hbusy' hvalid hvalid' hwf hwf' hpw hsalt hrounds hlen
  obtain ⟨t, hexec, hbytes, -, hstatus, -⟩ := deriveWritesTheClosedForm s hbusy hvalid hwf
  obtain ⟨t', hexec', hbytes', -, hstatus', -⟩ := deriveWritesTheClosedForm s' hbusy' hvalid' hwf'
  refine ⟨t, t', hexec, hexec', hstatus.trans hstatus'.symm, fun d hd => ?_⟩
  rw [hbytes d hd, hbytes' d (hlen ▸ hd), hpw, hsalt, hrounds, hlen]

/-- The output length enters the closed form through the block count alone (R101). -/
theorem derivedByte_congr {n n' : Nat} (h : (n + 31) / 32 = (n' + 31) / 32) (pw salt : List Byte) (r d : Nat) :
    derivedByte pw salt r n d = derivedByte pw salt r n' d := by
  rw [derivedByte, derivedByte, h]

/-- Settles O31, as O30 but with equal block counts in place of equal output lengths. -/
theorem sameBlockCountSharesOutput : Obligations.SameBlockCountSharesOutput := by
  intro s s' hbusy hbusy' hvalid hvalid' hwf hwf' hpw hsalt hrounds hcount
  obtain ⟨t, hexec, hbytes, -⟩ := deriveWritesTheClosedForm s hbusy hvalid hwf
  obtain ⟨t', hexec', hbytes', -⟩ := deriveWritesTheClosedForm s' hbusy' hvalid' hwf'
  refine ⟨t, t', hexec, hexec', fun d hd hd' => ?_⟩
  rw [hbytes d hd, hbytes' d hd', hpw, hsalt, hrounds, derivedByte_congr hcount]

/-! The requests for a digest and for the erasure (R96, R97). -/

/-- Settles O36: the fields of the erasure. -/
theorem zeroErasesTheInternalStorage : Obligations.ZeroErasesTheInternalStorage := fun s =>
  ⟨eraseInternal s, rfl, eraseInternal_internalZero s, ⟨rfl, rfl, rfl, rfl, rfl, rfl⟩, ⟨rfl, rfl, rfl, rfl, rfl, rfl⟩,
    rfl, rfl, rfl, rfl, rfl, eraseInternal_of_internalZero⟩

/-- Settles O37: the meaning of `SHA512`. -/
theorem sha512ReturnsTheDigest : Obligations.Sha512ReturnsTheDigest := exec_sha512

end Sys2Proof.Machine
end

section
/-! Every running command completes (R95, R132): from each stage, the last one first, the moves of the sequencer lead to an idle block
that reports `DONE`. The loops are the moves that refine the atomic `DERIVE`. -/

namespace Sys2Proof.Machine

/-- The sequencer comes from `s` to an idle block with `DONE = 1`. -/
def Completes (s : State) : Prop := ∃ t, Moves s t ∧ t.stage = .idle ∧ t.done = true

theorem Completes.of_moves {s t : State} (h : Moves s t) (ht : Completes t) : Completes s := by
  obtain ⟨u, moves, hu⟩ := ht
  exact ⟨u, h.trans moves, hu⟩

theorem Completes.of_advance {s t : State} (h : advance s = t) (ht : Completes t) : Completes s :=
  ht.of_moves (.head h (.refl t))

/-! After the block loop (R95, R97), and an error (R106). -/

theorem completes_report (s : State) : Completes (s.atStage .report) :=
  .of_advance (advance_report s) ⟨reportDone s, .refl _, rfl, show doneFlag statusDone = true by decide⟩

theorem completes_erase (s : State) : Completes (s.atStage .erase) := .of_advance (advance_erase s) (completes_report _)

theorem completes_raise_invalidArgument (s : State) : Completes (raise .invalidArgument s) :=
  ⟨_, .refl _, rfl, show doneFlag (statusError .invalidArgument) = true by decide⟩

/-! The block loop and the stretching loop (R87 step 3), with a free digest port. -/

section
variable {s : State} (port : s.digestReq = none)
include port

theorem completes_scatter : Completes (s.atStage .scatter) :=
  .of_advance (advance_scatter s) (.of_moves (moves_deriveBlocks _ (s.blkidx + 1) (scatterAcc s) rfl port) (completes_erase _))

theorem completes_enterRound (r : Nat) : Completes (enterRound r s) := by
  refine .of_moves (moves_stretchRounds _ r s rfl port) (completes_scatter ?_)
  rw [stretchRounds_keeps State.digestReq (fun _ _ _ _ _ _ _ _ _ => rfl) (fun _ _ => rfl), port]

theorem completes_accumulate (again : Bool) : Completes (s.atStage (.accumulate again)) := by
  cases again with
  | false => exact .of_advance (advance_accumulate_first s) (completes_enterRound (s := assignAcc s) port 1)
  | true => exact .of_advance (advance_accumulate_again s) (completes_enterRound (s := xorAcc s) port _)

/-! Inside a hash (R82). -/

theorem completes_encode (again : Bool) : Completes (s.atStage (.hash again .encode)) :=
  .of_advance (advance_hash_encode s again) (completes_accumulate (s := hashEncode s) port again)

/-- Step 5, with `n` encryptions done. -/
theorem completes_encryptions (again : Bool) {n : Nat} (hn : n ≤ Config.encIter) :
    Completes (s.atStage (.hash again (if n < Config.encIter then .encrypt n else .encode))) := by
  refine .of_moves ⟨_, iter_advance_encrypt again (Config.encIter - n) n s (by omega)⟩ (completes_encode ?_ again)
  rw [iter_keeps State.digestReq hashEncrypt_digestReq, port]

theorem completes_load (again : Bool) : Completes (s.atStage (.hash again .load)) :=
  .of_advance (advance_hash_load s again) (completes_encryptions (s := hashLoad s) port again (Nat.zero_le _))

/-- Step 3, with `n` iterations done. -/
theorem completes_expansions (again : Bool) {n : Nat} (hn : n ≤ Config.eksIter) :
    Completes (s.atStage (.hash again (if n < Config.eksIter then .expandSalt n else .load))) := by
  refine .of_moves ⟨_, iter_advance_expand again (Config.eksIter - n) n s (by omega)⟩ (completes_load ?_ again)
  rw [iter_keeps State.digestReq (f := fun u => hashExpandKey (hashExpandSalt u)) fun _ => rfl, port]

/-- Every step of a hash whose loop counter is in range. -/
theorem completes_hash (again : Bool) {place : HashStage} (counters : (Stage.hash again place).countersInRange) :
    Completes (s.atStage (.hash again place)) := by
  have salted {u : State} (hu : u.digestReq = none) : Completes (u.atStage (.hash again .salted)) :=
    .of_advance (advance_hash_salted u again) (completes_expansions (s := hashSalted u) hu again (Nat.zero_le _))
  cases place with
  | init => exact .of_advance (advance_hash_init s again) (salted port)
  | salted => exact salted port
  | expandSalt n =>
    have hn : n < Config.eksIter := of_decide_eq_true counters
    have expansions := completes_expansions port again hn.le
    rwa [if_pos hn] at expansions
  | expandKey n =>
    exact .of_advance (advance_hash_expandKey s again n)
      (completes_expansions (s := hashExpandKey s) port again (of_decide_eq_true counters))
  | load => exact completes_load port again
  | encrypt n =>
    have hn : n < Config.encIter := of_decide_eq_true counters
    have encryptions := completes_encryptions port again hn.le
    rwa [if_pos hn] at encryptions
  | encode => exact completes_encode port again

/-! The digest exchanges (R96). -/

theorem completes_saltDigest : Completes (s.atStage .saltDigest) :=
  .of_advance rfl (.of_advance (advance_advance_saltDigest port) (completes_hash (s := storeSaltDigest _ s) port false rfl))

theorem completes_reDigest : Completes (s.atStage .reDigest) :=
  .of_advance rfl (.of_advance (advance_advance_reDigest port) (completes_hash (s := storeSaltDigest _ s) port true rfl))

theorem completes_blockCount : Completes (s.atStage .blockCount) :=
  .of_advance (advance_blockCount s) (completes_saltDigest (s := countBlocks s) port)

theorem completes_preHash : Completes (s.atStage .preHash) :=
  .of_advance rfl (.of_advance (advance_advance_preHash port) (completes_blockCount (s := storePreHash _ s) port))

/-- The check of the command word (R63, R88): an error or the start of `DERIVE`. -/
theorem completes_checkCommand (c : BitVec 8) : Completes (checkCommand c s) := by
  by_cases refused : c ≠ deriveCode ∨ operandsRefused s = true
  · rw [checkCommand_of_refused refused]
    exact completes_raise_invalidArgument s
  · obtain ⟨hc, passed⟩ := not_or.1 refused
    rw [not_not.1 hc, checkCommand_derive_valid (Bool.eq_false_of_not_eq_true passed)]
    exact completes_preHash port

end

/-- The digest port answers the outstanding request and is free again. -/
theorem completes_of_answer {store : List Byte → State → State} {s : State} {g g' : Stage}
    (answer : advance (s.atStage g) = takeDigest store g' (s.atStage g)) (request : ∃ m, s.digestReq = some m)
    (next : ∀ t : State, t.digestReq = none → Completes (t.atStage g')) : Completes (s.atStage g) := by
  obtain ⟨m, hm⟩ := request
  exact .of_advance (answer.trans (takeDigest_some hm)) (next { store m (s.atStage g) with digestReq := none } rfl)

/-- A running command of a host-driven block completes from every stage. -/
theorem HostDriven.completes_atStage {s : State} {g : Stage} (h : HostDriven s) (hs : s.stage = g) (hrun : g ≠ .idle) :
    Completes (s.atStage g) := by
  have port (hg : g.awaitsDigest = false) : s.digestReq = none := by simpa using h.no_request (hs ▸ hg)
  have request (hg : g.awaitsDigest = true) : ∃ m, s.digestReq = some m := h.request (hs ▸ hg)
  cases g with
  | idle => exact absurd rfl hrun
  | accepted c => exact .of_advance (Machine.advance_accepted s c) (completes_checkCommand (port rfl) c)
  | preHash => exact completes_preHash (port rfl)
  | preHashAnswer => exact completes_of_answer rfl (request rfl) fun _ => completes_blockCount
  | blockCount => exact completes_blockCount (port rfl)
  | saltDigest => exact completes_saltDigest (port rfl)
  | saltDigestAnswer => exact completes_of_answer rfl (request rfl) fun _ ht => completes_hash ht false rfl
  | hash again place => exact completes_hash (port rfl) again (hs ▸ h.counters)
  | accumulate again => exact completes_accumulate (port rfl) again
  | reDigest => exact completes_reDigest (port rfl)
  | reDigestAnswer => exact completes_of_answer rfl (request rfl) fun _ ht => completes_hash ht true rfl
  | scatter => exact completes_scatter (port rfl)
  | erase => exact completes_erase s
  | report => exact completes_report s

/-- Settles O54: the moves of the rest of the command are steps of the silent block, and where they end it is erased, because every
step keeps the invariants of a host-driven block. -/
theorem everyCommandCompletes : Obligations.EveryCommandCompletes := by
  intro s h hrun hscript
  obtain ⟨t, ⟨k, moves⟩, hidle, hdone⟩ := h.completes_atStage rfl hrun
  rw [State.atStage_of_stage_eq rfl] at moves
  have steps : run k s = .next t := by rw [run_silent k h.quiet hscript, moves]
  exact ⟨k, t, steps, hidle, hdone, (run_keeps everyStepKeepsHostDriven h steps).erased (.inl hidle)⟩

end Sys2Proof.Machine
end

section
/-! What ends a command before its normal completion (`spec/60_exceptions.md`): an error that is taken (R106, R107), and the
hardware reset input (R109, R126). -/

namespace Sys2Proof.Machine

/-- InvalidArgument abandons the command, erases and reports, in whichever order (R106). -/
theorem raise_invalidArgument_eq (s : State) :
    raise .invalidArgument s = { eraseInternal s with status := 0x6, stage := .idle, digestReq := none } := by
  rw [raise_invalidArgument, statusError_invalidArgument]
  rfl

/-- Settles O38: InternalInvariantViolation as in a presented operation, InvalidArgument as a whole state. -/
theorem raiseTakesTheError : Obligations.RaiseTakesTheError := fun s =>
  ⟨raise_violationTaken s, raise_invalidArgument_eq s⟩

theorem hostAction_reset (s : State) : hostAction .reset s = .next (hardwareReset s) := rfl

/-- Settles O46: the reset line is taken off the script, and of the block before it only the count of free values stays. -/
theorem hardwareResetAtAnyMoment : Obligations.HardwareResetAtAnyMoment := by
  intro s rest hquiet hscript
  calc step s
      = hostAction .reset { s with script := rest } := step_line hquiet hscript (by simp)
    _ = .next (hardwareReset { s with script := rest }) := hostAction_reset _
    _ = .next { State.reset with script := rest, freeCtr := s.freeCtr } := by rw [hardwareReset]

end Sys2Proof.Machine
end

section
/-! What stops the model where the spec says nothing: a reserved code on the unit interface (`spec/30_encoding.md` R63) is refused,
a host access past the capacity of a buffer (`spec/10_state.md` R28) faults. -/

namespace Sys2Proof.Machine

/-! A reserved code on the unit interface (R61, R63). -/

/-- Beside `step_presented`: a presented word that decodes to no operation. -/
theorem step_presented_error {s : State} {w : BitVec 8} {e : DecodeError} (h : s.opSel = some w)
    (hd : decodeWord w = .error e) : step s = .refused (.reservedOperation w) := by
  simp only [step, h, presentedInstr, decode, hd]

/-- A word that decodes is the word of its operation, and none of those is reserved. -/
theorem commandWordWf_of_decodeWord {w : BitVec 8} {i : Instr} (h : decodeWord w = .ok i) : commandWordWf w = true := by
  obtain ⟨_, assigned, _⟩ := roundTrip i
  rwa [encodeWord_of_decodeWord h] at assigned

/-- Settles O5: a reserved word does not decode, because a word that decodes is not reserved. -/
theorem reservedCodePresentedIsRefused : Obligations.ReservedCodePresentedIsRefused := by
  intro s w hpresented hreserved
  cases hw : decodeWord w with
  | ok i => exact absurd (commandWordWf_of_decodeWord hw) (Bool.eq_false_iff.1 hreserved)
  | error e => exact step_presented_error hpresented hw

/-! A host access past the capacity of a buffer (R28). -/

/-- The read beside `hostWriteBytes_outside`. -/
theorem hostReadBytes_outside {s : State} {b : HostBuf} {i n : Nat} (h : s.busy = false)
    (hi : ¬ i + n ≤ bufferCapacity b) : hostReadBytes b i n s = .fault (.hostIndexOutOfRange b i) := by
  rw [hostReadBytes, if_neg (by simp [h]), if_neg hi]

/-- Settles O43, the write and the read. -/
theorem hostAccessPastCapacityFaults : Obligations.HostAccessPastCapacityFaults := fun _ _ _ hidle =>
  ⟨fun _ hpast => hostWriteBytes_outside hidle hpast.not_ge, fun _ hpast => hostReadBytes_outside hidle hpast.not_ge⟩

end Sys2Proof.Machine
end
